-- ==== Sys2Proof/Word.lean ====
section
/-! DEFINITION. The byte, the only word the block puts on the bus or takes from the host (R15, R45). -/

namespace Sys2Proof

/-- A byte, 8 bits, bit 0 the least significant (R15). -/
abbrev Byte := BitVec 8

end Sys2Proof
end

