-- ==== Sys2Proof/Config.lean ====
section
/-! DEFINITION. What is fixed for the machine: the implementation parameters of 00_scope.md (R6 to R8, R13) and the
OPEN parameters (R9 to R12, R30), which have no body, so that every theorem holds for each value of them
(notes/assumptions/7.md). -/

namespace Sys2Proof.Config

/-- `CHUNK_MAX`: the most data bytes of one data transaction (R6). -/
def chunkMax : Nat := 31

/-- `TXN_MAX`: the largest transaction, the mode-prefix byte counted (R6). -/
def txnMax : Nat := 32

/-- `PREFIX_CMD`, the mode-prefix byte of a command transaction (R7). -/
def prefixCmd : Byte := 0x00

/-- `PREFIX_DATA`, the mode-prefix byte of a data transaction (R7). -/
def prefixData : Byte := 0x40

/-- `PAGE_ROWS`: pixel rows in one page (R8). -/
def pageRows : Nat := 8

/-- `SCROLL_RATE`: the eight codes. No rule reads them and no request exposes them (R13). Their names and divisors are not
in the source (U7, notes/assumptions/17.md). -/
def scrollRate : List Byte := [0x00, 0x01, 0x02, 0x03, 0x04, 0x05, 0x06, 0x07]

/-- The parameter `DEV_ADDR`, a 7-bit bus address, OPEN (R9). -/
opaque devAddr : BitVec 7

/-- `FONT[k][j]`: byte `j` of the glyph of ASCII code `32 + k`, OPEN (R10). -/
opaque font : Fin 96 → Fin 8 → Byte

/-- `INIT_SEQ[i]`: the twenty bytes of the initialisation sequence, OPEN (R11). -/
opaque initSeq : Fin 20 → Byte

/-- `CONTRAST_CMD`: the brightness-select command byte, OPEN (R12). -/
opaque contrastCmd : Byte

end Sys2Proof.Config
end

