-- ==== Sys2Proof/Machine/State.lean ====
section
/-! DEFINITION. The state of the block (10_state.md), its input and output channels, and its state after reset
(70_reset_and_hazards.md). -/

namespace Sys2Proof.Machine

/-- The addressing mode `MODE`, "enumeration Unset, Horizontal, Page" (R20). The reserved code `0b11` is not representable
(S3, notes/assumptions/16.md). -/
inductive Mode where
  | unset | horizontal | page
  deriving DecidableEq, Repr

/-- The sequencer's `PHASE` (R31). -/
inductive Phase where
  /-- Between requests. -/
  | idle
  /-- Part of a request is consumed. -/
  | recv
  /-- A request is running. -/
  | exec
  /-- An illegal opcode was consumed (R112). -/
  | faulted
  deriving DecidableEq, Repr

/-- The transport's answer to a transaction (R41). -/
inductive Answer where
  | success | failure
  deriving DecidableEq, Repr

/-- A response: the status byte and the result bytes (R42, R67). -/
structure Response where
  status : Byte
  data : List Byte
  deriving DecidableEq, Repr

/-- What a run shows, in order (R141). -/
inductive Event where
  /-- A transaction is issued to the device address `addr` (R41). -/
  | issue (addr : BitVec 7) (payload : List Byte)
  /-- The transport answers the transaction in flight (R32). -/
  | answer (payload : List Byte) (r : Answer)
  /-- The diagnostic event `TxFail(payload)` (R111). -/
  | txFail (payload : List Byte)
  /-- A response is emitted (R42). -/
  | respond (r : Response)
  /-- Reset leaves the transaction in flight without an answer: it may or may not complete on the bus (R122). The model's
  own record, no output of the block (notes/assumptions/8.md). -/
  | abandon (payload : List Byte)
  deriving DecidableEq, Repr

/-- Byte-addressed memory: the bytes that hold a value, addresses strictly rising. An unlisted address holds no value
(R38, notes/assumptions/6.md). -/
abbrev Memory := List Host.Cell

/-- The canonical form of a memory. -/
abbrev Memory.wf (m : Memory) : Prop := (m.map Prod.fst).Pairwise (· < ·)

/-- The state of the block (R33) with its channels. -/
structure State where
  /-- `MODE` (R20). -/
  mode : Mode
  /-- `DEV_ADDR` (R24). -/
  devAddr : BitVec 7
  /-- `FAULT` (R25). -/
  fault : Bool
  /-- `RP`, the request bytes consumed since reset (R26). -/
  rp : Nat
  /-- `PHASE` (R31). -/
  phase : Phase
  /-- `CUR`, the bytes consumed of the request being received or run (R31). -/
  cur : List Byte
  /-- `TXQ`, the payloads of the transactions still to issue, the one in flight first (R31). -/
  txq : List (List Byte)
  /-- `INFLIGHT` (R31). -/
  inflight : Bool
  /-- `COMMIT` (R31). -/
  commit : Option Mode
  /-- `RESP`, the response to emit last (R31). -/
  resp : Option Response
  /-- The space `FRAME` (R34, R38). -/
  frame : Memory
  /-- The space `REQ`: bytes the host has written and the block has not consumed (R35, notes/assumptions/1.md). -/
  req : List Byte
  /-- What the transport will answer each time it is asked for the answer of the transaction in flight; `none` is "not yet",
  and after the list's end it never answers (R41, R115). The model's own field (notes/assumptions/2.md). -/
  transport : List (Option Answer)
  /-- Whether the host asserts reset before each coming step; after the list's end it does not (R121). The model's own
  field (notes/assumptions/3.md). -/
  resetLine : List Bool
  /-- What the run has shown, the oldest event first (R141, notes/assumptions/8.md). -/
  trace : List Event
  deriving DecidableEq, Repr

/-- Why the block takes no further step. -/
inductive Fault where
  /-- The block is in `FAULT` and reset is not asserted: it takes no step (R25, R112). Raised by `engine`. Safe: nothing
  is proved of a run that goes on from here (notes/assumptions/4.md). -/
  | faulted
  /-- A `MemRead` of a byte that is outside its space or holds no value (R37, S6). Raised by `withRead` and
  `withPacked`; no request reaches it. Safe (notes/assumptions/14.md). -/
  | unreadable
  deriving DecidableEq, Repr

/-- Why a request has no meaning. -/
inductive Refusal where
  /-- The request is not modelled. No arm of `exec` answers it: every request has its meaning. Safe. -/
  | notModelled (mnemonic : String)
  deriving DecidableEq, Repr

/-- The block right after reset (R121), with no event shown and nothing on its input channels (notes/assumptions/20.md). -/
def State.reset : State where
  mode := .unset
  devAddr := Config.devAddr
  fault := false
  rp := 0
  phase := .idle
  cur := []
  txq := []
  inflight := false
  commit := none
  resp := none
  frame := []
  req := []
  transport := []
  resetLine := []
  trace := []

end Sys2Proof.Machine
end

