-- ==== Sys2Proof/Machine/Flags.lean ====
section
/-! DEFINITION. The conditions of the block and their status codes (R104, R108), and the image validity test (R90). The
block has no condition codes; its one flag is `FAULT` (R25, R27), set by `enterFault` in Ops.lean. -/

namespace Sys2Proof.Machine

/-- Status OK (R108). -/
def statusOk : Byte := 0x00

/-- The conditions that change a status (R104, R107). `TransportFailure` changes none (R79) and `DecodeFailure` is never
raised (R114). -/
inductive Condition where
  | invalidDimensions | badOperand | illegalOpcode
  deriving DecidableEq, Repr

/-- The status byte of each condition (R108). -/
def Condition.status (c : Condition) : Byte :=
  match c with
  | .invalidDimensions => 0x01
  | .badOperand => 0x02
  | .illegalOpcode => 0xFF

/-- `Valid(W, H, N)` (R90), the product exact. -/
def imageValid (w h n : Nat) : Bool :=
  1 ≤ w && 1 ≤ h && h % Config.pageRows == 0 && n == w * h

end Sys2Proof.Machine
end

