-- ==== Sys2Proof/Machine/Operands.lean ====
section
/-! DEFINITION. What the requests compute from their operands: the composed command bytes (R71 to R73), the glyph index
(R99), the mode codes (R20, R102). -/

namespace Sys2Proof.Machine

/-- The 2-bit encoding of `MODE` (R20). -/
def Mode.code (m : Mode) : BitVec 2 :=
  match m with
  | .unset => 0b00
  | .horizontal => 0b01
  | .page => 0b10

/-- `zext_8(MODE)`, READ_MODE's result byte (R67, R89). -/
def Mode.byte (m : Mode) : Byte := m.code.setWidth 8

/-- The mode that SETUP's operand asks for; the other operand values are reserved (R65, R102). -/
def setupMode (b : Byte) : Option Mode :=
  if b = 0x01 then some .horizontal else if b = 0x02 then some .page else none

/-- The command bytes of a switch to a mode (R71, R84). There is no switch to Unset (R83). -/
def modeSwitchCmds (m : Mode) : List Byte :=
  match m with
  | .unset => []
  | .horizontal => [0x20, 0x00]
  | .page => [0x20, 0x02]

/-- `PageCmd(ROW) = 0xB0 + ROW` (R72). -/
def pageCmd (row : Byte) : Byte := BitVec.ofNat 8 (0xB0 + row.toNat)

/-- The rows whose page-select byte fits in a byte; the others are reserved (R65, R72). -/
def rowLegal (row : Byte) : Bool := row.toNat < 80

/-- `ColLo(COL) = 0x00 | ((8*COL) & 0x0F)` (R73). -/
def colLo (col : Byte) : Byte := BitVec.ofNat 8 (0x00 ||| ((8 * col.toNat) &&& 0x0F))

/-- `ColHi(COL) = 0x10 | (((8*COL) >> 4) & 0x0F)` (R73). -/
def colHi (col : Byte) : Byte := BitVec.ofNat 8 (0x10 ||| (((8 * col.toNat) >>> 4) &&& 0x0F))

/-- `GlyphIndex(CP)` (R99). -/
def glyphIndex (cp : BitVec 24) : Nat :=
  if 32 ≤ cp.toNat ∧ cp.toNat ≤ 127 then cp.toNat - 32 else 0

end Sys2Proof.Machine
end

