-- ==== Sys2Proof/Machine/Ops.lean ====
section
/-! DEFINITION. The named operations over memory, the sequencer and the channels that the requests and the engine are made
of: `MemRead`, `MemWrite`, the framing functions, what a request's rule yields, `raise`, `FAULT` and reset. -/

namespace Sys2Proof.Machine

/-! ### Memory -/

/-- The byte at an address, where it holds one. -/
def Memory.read (m : Memory) (a : Nat) : Option Byte :=
  match m with
  | [] => none
  | c :: cs => if c.1 = a then some c.2 else Memory.read cs a

/-- `MemWrite(FRAME:a, 1, v)` (R38): the addresses stay strictly rising. -/
def Memory.write (m : Memory) (a : Nat) (v : Byte) : Memory :=
  match m with
  | [] => [(a, v)]
  | c :: cs =>
    if a < c.1 then (a, v) :: c :: cs
    else if a = c.1 then (a, v) :: cs
    else c :: Memory.write cs a v

/-- The readable spaces (R34, R37), each with what it holds while a request runs. -/
inductive Space where
  /-- `PAYLOAD` (R36). -/
  | payload (bytes : List Byte)
  /-- `SAMPLE` (R36). -/
  | sample (bytes : List Byte)
  /-- `FRAME` (R38). -/
  | frame (m : Memory)
  /-- `FONTROM`, indices 0 to 767 (R39). -/
  | fontRom
  /-- `INITROM`, indices 0 to 19 (R39). -/
  | initRom
  deriving DecidableEq, Repr

/-- The byte at index `i` of a space, where it holds one (R37, R39). -/
def Space.byteAt (sp : Space) (i : Nat) : Option Byte :=
  match sp with
  | .payload bytes => bytes[i]?
  | .sample bytes => bytes[i]?
  | .frame m => m.read i
  | .fontRom => if h : i < 768 then some (Config.font ⟨i / 8, by omega⟩ ⟨i % 8, by omega⟩) else none
  | .initRom => if h : i < 20 then some (Config.initSeq ⟨i, h⟩) else none

/-- `MemRead(SPACE:i, n)` (R37), where all its bytes hold a value. -/
def memRead (sp : Space) (i n : Nat) : Option (List Byte) :=
  match n with
  | 0 => some []
  | n + 1 =>
    match sp.byteAt i with
    | none => none
    | some b => (memRead sp (i + 1) n).map (b :: ·)

/-- Go on with the bytes of a `MemRead`; one without a value stops the block (notes/assumptions/14.md). -/
def withRead (sp : Space) (i n : Nat) (k : List Byte → Host.Outcome State Fault Refusal) :
    Host.Outcome State Fault Refusal :=
  match memRead sp i n with
  | none => .fault .unreadable
  | some bytes => k bytes

/-! ### Framing (40_framer.md) -/

/-- `CmdTxn(c)` (R74). -/
def cmdTxn (c : Byte) : List Byte := [Config.prefixCmd, c]

/-- `DataTxn(d)` (R74). -/
def dataTxn (d : Byte) : List Byte := [Config.prefixData, d]

/-- `ChunkTxn(q)` (R69). -/
def chunkTxn (q : List Byte) : List Byte := Config.prefixData :: q

/-- `xs[i..j)` (R16). -/
def slice (xs : List Byte) (i j : Nat) : List Byte := (xs.drop i).take (j - i)

/-- `Chunks(bs)` (R75, R76). -/
def chunks (bs : List Byte) : List (List Byte) :=
  let l := bs.length
  if l < Config.txnMax then [chunkTxn bs]
  else
    let f := l / Config.chunkMax
    let out := (List.range f).map fun i => chunkTxn (slice bs (Config.chunkMax * i) (Config.chunkMax * i + Config.chunkMax))
    if l % Config.chunkMax = 0 then out else out ++ [chunkTxn (slice bs (Config.chunkMax * f) l)]

/-- `ModeSwitchTxns(m)` (R84). -/
def modeSwitchTxns (m : Mode) : List (List Byte) := (modeSwitchCmds m).map cmdTxn

/-! ### What a request's rule yields -/

/-- A request's rule yields `TXQ`, `COMMIT` and `RESP` (R31, R32). -/
def State.plan (s : State) (txq : List (List Byte)) (commit : Option Mode) (resp : Response) : State :=
  { s with txq := txq, commit := commit, resp := some resp }

/-- A rule that ends with status OK and no result bytes. -/
def State.planOk (s : State) (txq : List (List Byte)) (commit : Option Mode) : State :=
  s.plan txq commit ⟨statusOk, []⟩

/-- `raise <Condition>` in a request's rule (R109): no transaction, no commit, the condition's status. The block's form of
taking an exception; nothing is saved (R117). -/
def State.raise (s : State) (c : Condition) : State := s.plan [] none ⟨c.status, []⟩

/-- `Respond(status, data)` (R42). -/
def State.respond (s : State) (r : Response) : State := { s with trace := s.trace ++ [.respond r] }

/-- An illegal opcode byte was consumed (R112): `Respond(0xFF, [])`, then `FAULT`. `CUR` keeps the byte
(notes/assumptions/15.md). -/
def State.enterFault (s : State) : State :=
  { s.respond ⟨Condition.illegalOpcode.status, []⟩ with fault := true, phase := .faulted }

/-- The event that records a transaction left in flight by reset (R122). -/
def State.abandoned (s : State) : List Event :=
  match s.inflight, s.txq with
  | true, p :: _ => [.abandon p]
  | _, _ => []

/-- Reset (R121 to R123), the only way out of `FAULT` (R113). It issues nothing and emits nothing; bytes not yet consumed stay
on `REQ`. -/
def State.applyReset (s : State) : State :=
  { s with
    mode := .unset
    devAddr := Config.devAddr
    fault := false
    rp := 0
    phase := .idle
    cur := []
    txq := []
    inflight := false
    commit := none
    resp := none
    frame := []
    trace := s.trace ++ s.abandoned }

end Sys2Proof.Machine
end

