-- ==== Sys2Proof/Machine/AddressingMode.lean ====
section
/-! DEFINITION. SET_HMODE, SET_PMODE, READ_MODE (41_addressing_mode.md). -/

namespace Sys2Proof.Machine

/-- SET_HMODE (R87). `MODE` is written when both commands are answered (R85). -/
def execSetHmode (s : State) : Host.Outcome State Fault Refusal :=
  .next (s.planOk (modeSwitchTxns .horizontal) (some .horizontal))

/-- SET_PMODE (R88). -/
def execSetPmode (s : State) : Host.Outcome State Fault Refusal :=
  .next (s.planOk (modeSwitchTxns .page) (some .page))

/-- READ_MODE (R89), the only request that reads `MODE` (R22). -/
def execReadMode (s : State) : Host.Outcome State Fault Refusal :=
  .next (s.plan [] none ⟨statusOk, [s.mode.byte]⟩)

end Sys2Proof.Machine
end

