-- ==== Sys2Proof/Machine/Framer.lean ====
section
/-! DEFINITION. SEND_CMD, SEND_DATA, SEND_ARRAY (40_framer.md). -/

namespace Sys2Proof.Machine

/-- SEND_CMD (R80). It never writes `MODE`, whatever its byte (R21). -/
def execSendCmd (b : Byte) (s : State) : Host.Outcome State Fault Refusal :=
  .next (s.planOk [cmdTxn b] none)

/-- SEND_DATA (R81). -/
def execSendData (b : Byte) (s : State) : Host.Outcome State Fault Refusal :=
  .next (s.planOk [dataTxn b] none)

/-- SEND_ARRAY (R82). -/
def execSendArray (payload : List Byte) (s : State) : Host.Outcome State Fault Refusal :=
  withRead (.payload payload) 0 payload.length fun bs => .next (s.planOk (chunks bs) none)

end Sys2Proof.Machine
end

