-- ==== Sys2Proof/Machine/Packer.lean ====
section
/-! DEFINITION. The packing function and PACK, PUT_IMAGE (42_packer.md). -/

namespace Sys2Proof.Machine

/-- The bit that the sample of one pixel puts into a frame byte: the threshold is strict (R92, R94). -/
def pixelBit (sens sample : Byte) (b : Nat) : Byte := (if sens < sample then 1#8 else 0#8) <<< b

/-- The inner loop of `Pack` (R92): the frame byte of page `p`, column `c`. -/
def packByte (sens : Byte) (w : Nat) (samples : List Byte) (p c : Nat) : Option Byte :=
  (List.range Config.pageRows).foldlM
    (fun byte b => ((Space.sample samples).byteAt ((8 * p + b) * w + c)).map fun sample => byte ||| pixelBit sens sample b)
    0#8

/-- The column loop of `Pack` for page `p` (R92), on the frame `m`. -/
def packPage (sens : Byte) (w : Nat) (samples : List Byte) (p : Nat) (m : Memory) : Option Memory :=
  (List.range w).foldlM (fun m c => (packByte sens w samples p c).map fun byte => m.write (p * w + c) byte) m

/-- The page loop of `Pack` (R92), on the frame `m`. -/
def packPages (sens : Byte) (w pages : Nat) (samples : List Byte) (m : Memory) : Option Memory :=
  (List.range pages).foldlM (fun m p => packPage sens w samples p m) m

/-- `Pack(S, W, H)` (R92): go on with the frame written and its bytes read back. A `MemRead` without a value stops the block
(notes/assumptions/14.md). -/
def withPacked (sens : Byte) (w h : Nat) (samples : List Byte) (m : Memory)
    (k : Memory → List Byte → Host.Outcome State Fault Refusal) : Host.Outcome State Fault Refusal :=
  match packPages sens w (h / Config.pageRows) samples m with
  | none => .fault .unreadable
  | some m' => withRead (.frame m') 0 (h / Config.pageRows * w) fun bytes => k m' bytes

/-- PACK (R96). -/
def execPack (sens : Byte) (w h : BitVec 16) (samples : List Byte) (s : State) : Host.Outcome State Fault Refusal :=
  if imageValid w.toNat h.toNat samples.length then
    withPacked sens w.toNat h.toNat samples s.frame fun m bytes =>
      .next ({ s with frame := m }.plan [] none ⟨statusOk, bytes⟩)
  else .next (s.raise .invalidDimensions)

/-- PUT_IMAGE (R97). It neither reads nor writes `MODE` (R22). -/
def execPutImage (sens : Byte) (w h : BitVec 16) (samples : List Byte) (s : State) : Host.Outcome State Fault Refusal :=
  if imageValid w.toNat h.toNat samples.length then
    withPacked sens w.toNat h.toNat samples s.frame fun m bytes =>
      .next ({ s with frame := m }.planOk (chunks bytes) none)
  else .next (s.raise .invalidDimensions)

end Sys2Proof.Machine
end

