-- ==== Sys2Proof/Machine/Text.lean ====
section
/-! DEFINITION. SET_TEXT_XY, PUT_CHAR, SETUP, SET_BRIGHTNESS (43_text_and_controller.md). -/

namespace Sys2Proof.Machine

/-- SET_TEXT_XY (R98). No cursor is kept (R29). -/
def execSetTextXy (col row : Byte) (s : State) : Host.Outcome State Fault Refusal :=
  if rowLegal row then .next (s.planOk [cmdTxn (pageCmd row), cmdTxn (colLo col), cmdTxn (colHi col)] none)
  else .next (s.raise .badOperand)

/-- PUT_CHAR (R100). -/
def execPutChar (cp : BitVec 24) (s : State) : Host.Outcome State Fault Refusal :=
  withRead .fontRom (8 * glyphIndex cp) 8 fun glyph => .next (s.planOk (chunks glyph) none)

/-- SETUP (R101, R102): one command transaction per byte of `INIT_SEQ`, then the mode switch. -/
def execSetup (b : Byte) (s : State) : Host.Outcome State Fault Refusal :=
  match setupMode b with
  | none => .next (s.raise .badOperand)
  | some m =>
    withRead .initRom 0 20 fun seq => .next (s.planOk (seq.map cmdTxn ++ modeSwitchTxns m) (some m))

/-- SET_BRIGHTNESS (R103): the contrast value goes as a command byte, unchanged. -/
def execSetBrightness (v : Byte) (s : State) : Host.Outcome State Fault Refusal :=
  .next (s.planOk [cmdTxn Config.contrastCmd, cmdTxn v] none)

end Sys2Proof.Machine
end

