-- ==== Sys2Proof/Syntax.lean ====
section
/-! DEFINITION. The requests of the block, one constructor per row of spec/opcode_table.json (R63). -/

namespace Sys2Proof

/-- A request with its operands (R60, R61). A variable part is carried as the list of its bytes. Its length field (`L` of
SEND_ARRAY, `N` of PUT_IMAGE and PACK) is the length of that list, because a request is complete exactly when that many
bytes of it are consumed (R62, notes/assumptions/11.md). -/
inductive Instr where
  /-- SEND_CMD `B` (R80). -/
  | sendCmd (b : Byte)
  /-- SEND_DATA `B` (R81). -/
  | sendData (b : Byte)
  /-- SEND_ARRAY with `PAYLOAD` (R82). -/
  | sendArray (payload : List Byte)
  /-- SET_HMODE (R87). -/
  | setHmode
  /-- SET_PMODE (R88). -/
  | setPmode
  /-- SET_TEXT_XY `COL`, `ROW` (R98). -/
  | setTextXy (col row : Byte)
  /-- PUT_CHAR `CP` (R100). -/
  | putChar (cp : BitVec 24)
  /-- PUT_IMAGE `S`, `W`, `H` with `SAMPLE` (R97). -/
  | putImage (sens : Byte) (w h : BitVec 16) (samples : List Byte)
  /-- PACK `S`, `W`, `H` with `SAMPLE` (R96). -/
  | pack (sens : Byte) (w h : BitVec 16) (samples : List Byte)
  /-- SETUP `B` (R102). -/
  | setup (b : Byte)
  /-- SET_BRIGHTNESS `V` (R103). -/
  | setBrightness (v : Byte)
  /-- READ_MODE (R89). -/
  | readMode
  deriving DecidableEq, Repr

end Sys2Proof
end

