-- ==== Sys2Proof/Machine/Dispatch.lean ====
section
/-! DEFINITION. The rule of each request: `plan(CUR)` of R32, one arm per row of spec/opcode_table.json (R63). -/

namespace Sys2Proof.Machine

/-- Run the rule of a complete request: what it yields is in `TXQ`, `COMMIT`, `RESP` and `FRAME` of the next state. The
engine then issues `TXQ`, writes `COMMIT` and emits `RESP` (R32). -/
def exec (i : Instr) (s : State) : Host.Outcome State Fault Refusal :=
  match i with
  | .sendCmd b => Sys2Proof.Machine.execSendCmd b s
  | .sendData b => Sys2Proof.Machine.execSendData b s
  | .sendArray payload => Sys2Proof.Machine.execSendArray payload s
  | .setHmode => Sys2Proof.Machine.execSetHmode s
  | .setPmode => Sys2Proof.Machine.execSetPmode s
  | .setTextXy col row => Sys2Proof.Machine.execSetTextXy col row s
  | .putChar cp => Sys2Proof.Machine.execPutChar cp s
  | .putImage sens w h samples => Sys2Proof.Machine.execPutImage sens w h samples s
  | .pack sens w h samples => Sys2Proof.Machine.execPack sens w h samples s
  | .setup b => Sys2Proof.Machine.execSetup b s
  | .setBrightness v => Sys2Proof.Machine.execSetBrightness v s
  | .readMode => Sys2Proof.Machine.execReadMode s

end Sys2Proof.Machine
end

