-- ==== Sys2Proof/WellFormed.lean ====
section
/-! DEFINITION. Which requests have an encoding: the length fields have 16 and 32 bits (R14). Every other operand value is
an encodable one, the reserved values of SETUP and SET_TEXT_XY among them (R65). -/

namespace Sys2Proof

/-- A variable part whose length fits the 16-bit field `L` (R14). -/
def payloadFits (payload : List Byte) : Bool := payload.length < 65536

/-- A variable part whose length fits the 32-bit field `N` (R14). -/
def samplesFit (samples : List Byte) : Bool := samples.length < 4294967296

/-- The request can be written on `REQ` (R59, R60). -/
def Instr.wellFormed : Instr → Bool
  | .sendCmd _ => true
  | .sendData _ => true
  | .sendArray payload => payloadFits payload
  | .setHmode => true
  | .setPmode => true
  | .setTextXy _ _ => true
  | .putChar _ => true
  | .putImage _ _ _ samples => samplesFit samples
  | .pack _ _ _ samples => samplesFit samples
  | .setup _ => true
  | .setBrightness _ => true
  | .readMode => true

end Sys2Proof
end

