-- ==== Sys2Proof/Decode.lean ====
section
/-! DEFINITION. The request decoder, total on any bytes, and the encoder (30_encoding.md, sections 1 to 3). -/

namespace Sys2Proof

/-- The opcode map's rows (R63). -/
inductive Opcode where
  | sendCmd | sendData | sendArray | setHmode | setPmode | setTextXy
  | putChar | putImage | pack | setup | setBrightness | readMode
  deriving DecidableEq, Repr

/-- The opcode byte of each row (R63). -/
def Opcode.byte : Opcode → Byte
  | .sendCmd => 0x01
  | .sendData => 0x02
  | .sendArray => 0x03
  | .setHmode => 0x04
  | .setPmode => 0x05
  | .setTextXy => 0x06
  | .putChar => 0x07
  | .putImage => 0x08
  | .pack => 0x09
  | .setup => 0x0A
  | .setBrightness => 0x0B
  | .readMode => 0x0C

/-- The row of an opcode byte. `0x00` and `0x0D` to `0xFF` have none: they are illegal (R64). -/
def Opcode.ofByte (b : Byte) : Option Opcode :=
  match b.toNat with
  | 1 => some .sendCmd
  | 2 => some .sendData
  | 3 => some .sendArray
  | 4 => some .setHmode
  | 5 => some .setPmode
  | 6 => some .setTextXy
  | 7 => some .putChar
  | 8 => some .putImage
  | 9 => some .pack
  | 10 => some .setup
  | 11 => some .setBrightness
  | 12 => some .readMode
  | _ => none

/-- The request formats (R60). -/
inductive Format where
  | f0 | fb | fxy | fc | fa | fi
  deriving DecidableEq, Repr

/-- The format of each row (R63). -/
def Opcode.format : Opcode → Format
  | .sendCmd => .fb
  | .sendData => .fb
  | .sendArray => .fa
  | .setHmode => .f0
  | .setPmode => .f0
  | .setTextXy => .fxy
  | .putChar => .fc
  | .putImage => .fi
  | .pack => .fi
  | .setup => .fb
  | .setBrightness => .fb
  | .readMode => .f0

/-- A 16-bit field, the byte at the lower stream position the less significant (R44, R61). -/
def le16 (q0 q1 : Byte) : BitVec 16 := q1 ++ q0

/-- A 24-bit field, little-endian (R44, R61). -/
def le24 (q0 q1 q2 : Byte) : BitVec 24 := q2 ++ q1 ++ q0

/-- A 32-bit field, little-endian (R44, R61). -/
def le32 (q0 q1 q2 q3 : Byte) : BitVec 32 := q3 ++ q2 ++ q1 ++ q0

/-- Byte `k` of a field, from its least significant byte (R44). -/
def fieldByte {n : Nat} (v : BitVec n) (k : Nat) : Byte := v.extractLsb' (8 * k) 8

/-- `ReqLen` of a format, once the operand bytes that tell it are consumed (R62). -/
def Format.reqLen (f : Format) (args : List Byte) : Option Nat :=
  match f with
  | .f0 => some 1
  | .fb => some 2
  | .fxy => some 3
  | .fc => some 4
  | .fa =>
    match args with
    | l0 :: l1 :: _ => some (3 + (le16 l0 l1).toNat)
    | _ => none
  | .fi =>
    match args with
    | _ :: _ :: _ :: _ :: _ :: n0 :: n1 :: n2 :: n3 :: _ => some (10 + (le32 n0 n1 n2 n3).toNat)
    | _ => none

/-- `ReqLen` of the request that bytes begin, once it is known (R62). None also where the opcode byte is illegal. -/
def reqLen (q : List Byte) : Option Nat :=
  match q with
  | [] => none
  | op :: args =>
    match Opcode.ofByte op with
    | none => none
    | some o => o.format.reqLen args

/-- Why bytes are not a request. -/
inductive DecodeError where
  /-- The opcode byte is not in the opcode map (R64). -/
  | illegalOpcode (b : Byte)
  /-- The bytes end before the request does (R62). -/
  | incomplete
  deriving DecidableEq, Repr

/-- The operand of format FB and the bytes after it (R60). -/
def fieldsFB (q : List Byte) : Option (Byte × List Byte) :=
  match q with
  | b :: r => some (b, r)
  | _ => none

/-- The operands `COL`, `ROW` of format FXY and the bytes after them (R60). -/
def fieldsFXY (q : List Byte) : Option (Byte × Byte × List Byte) :=
  match q with
  | col :: row :: r => some (col, row, r)
  | _ => none

/-- The operand `CP` of format FC and the bytes after it (R60). -/
def fieldsFC (q : List Byte) : Option (BitVec 24 × List Byte) :=
  match q with
  | c0 :: c1 :: c2 :: r => some (le24 c0 c1 c2, r)
  | _ => none

/-- The first `n` bytes and the bytes after them, where there are as many. -/
def takeBytes (n : Nat) (q : List Byte) : Option (List Byte × List Byte) :=
  if q.length < n then none else some (q.take n, q.drop n)

/-- `PAYLOAD` of format FA and the bytes after it (R60). -/
def fieldsFA (q : List Byte) : Option (List Byte × List Byte) :=
  match q with
  | l0 :: l1 :: r => takeBytes (le16 l0 l1).toNat r
  | _ => none

/-- The operands of format FI. -/
structure ImageFields where
  /-- `S`, the sensitivity. -/
  sens : Byte
  /-- `W`, the width. -/
  w : BitVec 16
  /-- `H`, the height. -/
  h : BitVec 16
  /-- `SAMPLE`, of length `N`. -/
  samples : List Byte
  deriving DecidableEq, Repr

/-- The operands of format FI and the bytes after them (R60). -/
def fieldsFI (q : List Byte) : Option (ImageFields × List Byte) :=
  match q with
  | sens :: w0 :: w1 :: h0 :: h1 :: n0 :: n1 :: n2 :: n3 :: r =>
    (takeBytes (le32 n0 n1 n2 n3).toNat r).map fun p => (⟨sens, le16 w0 w1, le16 h0 h1, p.1⟩, p.2)
  | _ => none

/-- The request of an opcode with the operand bytes `q`, and the bytes after it (R60, R63). -/
def decodeOperands (o : Opcode) (q : List Byte) : Option (Instr × List Byte) :=
  match o with
  | .sendCmd => (fieldsFB q).map fun p => (.sendCmd p.1, p.2)
  | .sendData => (fieldsFB q).map fun p => (.sendData p.1, p.2)
  | .sendArray => (fieldsFA q).map fun p => (.sendArray p.1, p.2)
  | .setHmode => some (.setHmode, q)
  | .setPmode => some (.setPmode, q)
  | .setTextXy => (fieldsFXY q).map fun p => (.setTextXy p.1 p.2.1, p.2.2)
  | .putChar => (fieldsFC q).map fun p => (.putChar p.1, p.2)
  | .putImage => (fieldsFI q).map fun p => (.putImage p.1.sens p.1.w p.1.h p.1.samples, p.2)
  | .pack => (fieldsFI q).map fun p => (.pack p.1.sens p.1.w p.1.h p.1.samples, p.2)
  | .setup => (fieldsFB q).map fun p => (.setup p.1, p.2)
  | .setBrightness => (fieldsFB q).map fun p => (.setBrightness p.1, p.2)
  | .readMode => some (.readMode, q)

/-- The first request of a byte sequence and the bytes after it. `MODE` does not change how requests decode (R66). -/
def decode (q : List Byte) : Except DecodeError (Instr × List Byte) :=
  match q with
  | [] => .error .incomplete
  | op :: args =>
    match Opcode.ofByte op with
    | none => .error (.illegalOpcode op)
    | some o =>
      match decodeOperands o args with
      | none => .error .incomplete
      | some r => .ok r

/-- The bytes of format FA after the opcode (R60). -/
def encodeFA (payload : List Byte) : List Byte :=
  let l : BitVec 16 := BitVec.ofNat 16 payload.length
  fieldByte l 0 :: fieldByte l 1 :: payload

/-- The bytes of format FI after the opcode (R60). -/
def encodeFI (sens : Byte) (w h : BitVec 16) (samples : List Byte) : List Byte :=
  let n : BitVec 32 := BitVec.ofNat 32 samples.length
  sens :: fieldByte w 0 :: fieldByte w 1 :: fieldByte h 0 :: fieldByte h 1 ::
    fieldByte n 0 :: fieldByte n 1 :: fieldByte n 2 :: fieldByte n 3 :: samples

/-- The bytes of a request on `REQ` (R59, R60, R63). -/
def encode (i : Instr) : List Byte :=
  match i with
  | .sendCmd b => Opcode.sendCmd.byte :: [b]
  | .sendData b => Opcode.sendData.byte :: [b]
  | .sendArray payload => Opcode.sendArray.byte :: encodeFA payload
  | .setHmode => [Opcode.setHmode.byte]
  | .setPmode => [Opcode.setPmode.byte]
  | .setTextXy col row => Opcode.setTextXy.byte :: [col, row]
  | .putChar cp => Opcode.putChar.byte :: [fieldByte cp 0, fieldByte cp 1, fieldByte cp 2]
  | .putImage sens w h samples => Opcode.putImage.byte :: encodeFI sens w h samples
  | .pack sens w h samples => Opcode.pack.byte :: encodeFI sens w h samples
  | .setup b => Opcode.setup.byte :: [b]
  | .setBrightness v => Opcode.setBrightness.byte :: [v]
  | .readMode => [Opcode.readMode.byte]

/-- The `k` low bytes of a number, bits 7..0 first: the order in which spec/opcode_table.json numbers a request's bits. -/
def tableBytes (k w : Nat) : List Byte :=
  (List.range k).map fun i => BitVec.ofNat 8 (w >>> (8 * i))

/-- A request whose bits are `w` in the table's numbering, every bit above `nbits` 0, as the bytes the host writes: as many
as the request has (R62), an illegal opcode byte alone (notes/assumptions/19.md). -/
def tableRequest (nbits w : Nat) : List Byte :=
  let q := tableBytes (nbits / 8) w ++ List.replicate 10 0
  match reqLen q with
  | none => q.take 1
  | some n => (q ++ List.replicate (n - q.length) 0).take n

/-- The request the decoder reads from `tableRequest nbits w`. -/
def decodeTableWord (nbits w : Nat) : Option Instr :=
  match decode (tableRequest nbits w) with
  | .ok (i, _) => some i
  | .error _ => none

end Sys2Proof
end

