-- ==== Sys2Proof/Machine/Sequencer.lean ====
section
/-! DEFINITION. The clauses of the engine's step (R32), each a function of the state, and the other agents' steps (R19). -/

namespace Sys2Proof.Machine

/-- What offering the next request byte to the engine in `IDLE` or `RECV` comes to (R32). -/
inductive Fetched where
  /-- No byte is offered: the engine waits (R115). -/
  | hold
  /-- A byte is consumed and no request is complete with it: part of one, or an illegal opcode. -/
  | consumed (s : State)
  /-- A byte is consumed that completes the request `i`. -/
  | complete (i : Instr) (s : State)

/-- The `IDLE` and `RECV` clauses of R32, up to `plan(CUR)`. -/
def fetch (s : State) : Fetched :=
  match s.req with
  | [] => .hold
  | b :: rest =>
    let cur := if s.phase = .idle then [b] else s.cur ++ [b]
    let t := { s with req := rest, rp := s.rp + 1, cur := cur }
    match decode cur with
    | .error (.illegalOpcode _) => .consumed t.enterFault
    | .error .incomplete => .consumed { t with phase := .recv }
    | .ok (i, _) => .complete i { t with phase := .exec }

/-- `EXEC`, first clause (R32): issue the head of `TXQ` to `DEV_ADDR` (R41). -/
def State.issue (s : State) : State :=
  match s.inflight, s.txq with
  | false, p :: _ => { s with inflight := true, trace := s.trace ++ [.issue s.devAddr p] }
  | _, _ => s

/-- What an answer shows: itself, and on a `Failure` the diagnostic event (R111). -/
def answerEvents (p : List Byte) (r : Answer) : List Event :=
  match r with
  | .success => [.answer p .success]
  | .failure => [.answer p .failure, .txFail p]

/-- `EXEC`, second clause (R32): the transport is asked for the answer of the transaction in flight. A `Failure` is swallowed
(R110). -/
def State.poll (s : State) : State :=
  match s.inflight, s.transport with
  | true, some r :: rest =>
    { s with
      inflight := false
      txq := s.txq.tail
      transport := rest
      trace := s.trace ++ (s.txq.take 1).flatMap (answerEvents · r) }
  | true, none :: rest => { s with transport := rest }
  | _, _ => s

/-- `EXEC`, third clause (R32): with every transaction answered, write `COMMIT` to `MODE`, then emit `RESP` (R54); the
request ends and its buffers are discarded (R36, R38). -/
def State.finish (s : State) : State :=
  match s.inflight, s.txq with
  | false, [] =>
    { s with
      mode := s.commit.getD s.mode
      trace := s.trace ++ s.resp.toList.map .respond
      commit := none
      resp := none
      cur := []
      frame := []
      phase := .idle }
  | _, _ => s

/-- The `EXEC` clauses of R32, in their order (notes/assumptions/10.md). -/
def State.execPhase (s : State) : State := s.issue.poll.finish

/-- The sample of the reset input for this step, and the state without it (R121, notes/assumptions/3.md). -/
def State.sampleReset (s : State) : Bool × State :=
  match s.resetLine with
  | [] => (false, s)
  | r :: rest => (r, { s with resetLine := rest })

/-- The host writes bytes on `REQ` (R35). -/
def State.hostWrite (s : State) (bytes : List Byte) : State := { s with req := s.req ++ bytes }

/-- The transport settles what it will answer next (R41). -/
def State.transportWill (s : State) (polls : List (Option Answer)) : State := { s with transport := s.transport ++ polls }

/-- The block as it stands when all bytes of a request but the last are consumed and the last is offered
(notes/assumptions/12.md). -/
def State.withRequest (s : State) (q : List Byte) : State :=
  { s with
    fault := false
    phase := if q.length ≤ 1 then .idle else .recv
    cur := q.dropLast
    rp := s.rp + (q.length - 1)
    req := q.drop (q.length - 1) ++ s.req
    resetLine := [] }

/-! ### What a run shows (R141) -/

/-- A transaction issued, with the transport's answer; none: it was in flight when reset was asserted (R122). -/
structure TxRecord where
  payload : List Byte
  answer : Option Answer
  deriving DecidableEq, Repr

/-- The transactions that are answered or abandoned, in order, each with its answer (R141). -/
def transactions (tr : List Event) : List TxRecord :=
  tr.filterMap fun e =>
    match e with
    | .answer p r => some ⟨p, some r⟩
    | .abandon p => some ⟨p, none⟩
    | _ => none

/-- The transactions issued, in order: address and payload (R41). -/
def issued (tr : List Event) : List (BitVec 7 × List Byte) :=
  tr.filterMap fun e =>
    match e with
    | .issue addr p => some (addr, p)
    | _ => none

/-- The payloads of the diagnostic events, in order (R111). -/
def diagnostics (tr : List Event) : List (List Byte) :=
  tr.filterMap fun e =>
    match e with
    | .txFail p => some p
    | _ => none

/-- The responses, in order (R42). -/
def responses (tr : List Event) : List Response :=
  tr.filterMap fun e =>
    match e with
    | .respond r => some r
    | _ => none

/-- The response byte stream `RESP` (R34, R42). -/
def State.respStream (s : State) : List Byte := (responses s.trace).flatMap fun r => r.status :: r.data

/-- `PAYLOAD` of the SEND_ARRAY request in `CUR` (R36). -/
def State.payload (s : State) : List Byte := s.cur.drop 3

/-- `SAMPLE` of the PUT_IMAGE or PACK request in `CUR` (R36). -/
def State.sample (s : State) : List Byte := s.cur.drop 10

end Sys2Proof.Machine
end

