-- ==== Sys2Proof/Machine/Engine.lean ====
section
/-! DEFINITION. The engine's step (R32): the clauses of Sequencer.lean put together with the requests' rules. -/

namespace Sys2Proof.Machine

/-- The engine's step where reset is not asserted (R32). In `FAULT` there is none (R25). -/
def engine (s : State) : Host.Outcome State Fault Refusal :=
  if s.fault then .fault .faulted
  else
    match s.phase with
    | .faulted => .fault .faulted
    | .exec => .next s.execPhase
    | .idle | .recv =>
      match fetch s with
      | .hold => .next s
      | .consumed t => .next t
      | .complete i t => exec i t

end Sys2Proof.Machine
end

