-- ==== Sys2Proof/Machine/Step.lean ====
section
/-! DEFINITION. One step of the block: the engine's (R32), reset sampled before it (R121). -/

namespace Sys2Proof.Machine

/-- One step: reset where the host asserts it, at any time (R121), else the engine's. -/
def step (s : State) : Host.Outcome State Fault Refusal :=
  match s.sampleReset with
  | (true, t) => .next t.applyReset
  | (false, t) => engine t

/-- `s` with the request of a table word stored so that the very next step completes and runs it
(notes/assumptions/12.md). -/
def State.withFetchWord (s : State) (nbits w : Nat) : State := s.withRequest (tableRequest nbits w)

end Sys2Proof.Machine
end

