-- ==== Sys2Proof/Safety.lean ====
section
/-! DEFINITION. The terms in which claims about runs are made: the agents' interleaved steps (R19), the end of a run and its
observation (R141), what is legal on the bus and in a response, and the invariant of the machine. -/

namespace Sys2Proof.Machine

/-! ### Runs -/

/-- One step of one agent (R19): the engine; the host, writing bytes or asserting reset; the transport, settling what it will
answer. -/
inductive AgentStep (s : State) : State → Prop where
  | engine (t : State) (h : step s = .next t) : AgentStep s t
  | hostWrites (bytes : List Byte) : AgentStep s (s.hostWrite bytes)
  | hostResets : AgentStep s s.applyReset
  | transportSettles (polls : List (Option Answer)) : AgentStep s (s.transportWill polls)

/-- `n` steps of the block alone, on what its input channels hold; it stops where a step does. -/
def run (n : Nat) (s : State) : Host.Outcome State Fault Refusal :=
  match n with
  | 0 => .next s
  | n + 1 =>
    match step s with
    | .next t => run n t
    | .fault f => .fault f
    | .refused r => .refused r

/-- What a request's rule yields: `plan(CUR)` of R32. -/
structure Plan where
  /-- `TXQ`. -/
  txq : List (List Byte)
  /-- `COMMIT`. -/
  commit : Option Mode
  /-- `RESP`. -/
  resp : Response
  deriving DecidableEq, Repr

/-- What running a plan to its end shows: each transaction issued and answered, in order, and then the response (R52, R53). -/
def Plan.events (p : Plan) (addr : BitVec 7) (answers : List Answer) : List Event :=
  ((p.txq.zip answers).flatMap fun x => .issue addr x.1 :: answerEvents x.1 x.2) ++ [.respond p.resp]

/-- The mode after plans have run, one after another, from a mode: each commit is written (R54). -/
def modeAfter (m : Mode) (plans : List Plan) : Mode := plans.foldl (fun m p => p.commit.getD m) m

/-- The states that some interleaving of the agents' steps reaches from reset. -/
inductive Reachable : State → Prop where
  | reset : Reachable State.reset
  | step (s t : State) (hs : Reachable s) (h : AgentStep s t) : Reachable t

/-- A run has ended well: no request byte is left, the block is idle and not in `FAULT` (R141). -/
def State.endedWell (s : State) : Bool := s.req.isEmpty && s.phase == .idle && !s.fault

/-- The observation of a run (R141). -/
structure Observation where
  transactions : List TxRecord
  diagnostics : List (List Byte)
  responses : List Response
  mode : Mode
  deriving DecidableEq, Repr

/-- What a state shows of the run that led to it (R141). -/
def State.observe (s : State) : Observation :=
  ⟨transactions s.trace, diagnostics s.trace, responses s.trace, s.mode⟩

/-! ### The invariant -/

/-- The transaction shapes of R47 and R69: two bytes behind the command prefix, or at most 31 behind the data prefix. -/
def legalTxn (p : List Byte) : Bool :=
  match p with
  | [] => false
  | x :: q => (x == Config.prefixCmd && q.length == 1) || (x == Config.prefixData && q.length ≤ Config.chunkMax)

/-- The responses of R67 and R108: a status of the table, result bytes only with status OK. -/
def legalResponse (r : Response) : Bool :=
  r.status == statusOk ||
    ((r.status == Condition.invalidDimensions.status || r.status == Condition.badOperand.status ||
      r.status == Condition.illegalOpcode.status) && r.data == [])

/-- What the bus waits for, between two events of a trace. -/
inductive BusState where
  /-- No transaction is in flight. -/
  | quiet
  /-- The transaction with this payload is in flight. -/
  | waiting (p : List Byte)
  /-- It was answered `Failure`, and its diagnostic event is due. -/
  | failed (p : List Byte)
  deriving DecidableEq, Repr

/-- The events that may follow: transactions are legal, go to `DEV_ADDR` (R41), one at a time, each answered once (R48, R52)
or abandoned by reset (R122); each `Failure`, and nothing else, is followed by its diagnostic event (R111); responses are legal
and never come while a transaction is in flight (R53, R55). -/
def BusState.after (b : BusState) (e : Event) : Option BusState :=
  match b, e with
  | .quiet, .issue addr p => if addr = Config.devAddr ∧ legalTxn p then some (.waiting p) else none
  | .quiet, .respond r => if legalResponse r then some .quiet else none
  | .waiting p, .answer q .success => if p = q then some .quiet else none
  | .waiting p, .answer q .failure => if p = q then some (.failed p) else none
  | .waiting p, .abandon q => if p = q then some .quiet else none
  | .failed p, .txFail q => if p = q then some .quiet else none
  | _, _ => none

/-- What the bus waits for after a whole trace; none where some event may not stand where it does. -/
def busAfter (tr : List Event) : Option BusState := tr.foldlM BusState.after .quiet

/-- What the sequencer says the bus waits for. -/
def State.busState (s : State) : BusState :=
  match s.inflight, s.txq with
  | true, p :: _ => .waiting p
  | _, _ => .quiet

/-- The machine's invariant: what holds of every state that a run reaches. -/
structure Inv (s : State) : Prop where
  /-- `PHASE = FAULTED` exactly when `FAULT = 1` (R112). -/
  faultPhase : s.fault = true ↔ s.phase = .faulted
  /-- `DEV_ADDR` is immutable (R24). -/
  devAddr : s.devAddr = Config.devAddr
  /-- Only a running request holds transactions, a commit, a response or a frame (R31, R33, R38). -/
  quiet : s.phase ≠ .exec → s.txq = [] ∧ s.inflight = false ∧ s.commit = none ∧ s.resp = none ∧ s.frame = []
  /-- Between requests no byte is held (R31). -/
  idleCur : s.phase = .idle → s.cur = []
  /-- While a request is received, `CUR` is the beginning of one and not the whole (R31, R62). -/
  recvCur : s.phase = .recv → s.cur ≠ [] ∧ decode s.cur = .error .incomplete
  /-- While a request runs, `CUR` is exactly it, and its response is known (R31, R62). -/
  execCur : s.phase = .exec → (∃ i, decode s.cur = .ok (i, [])) ∧ s.resp ≠ none
  /-- A transaction in flight is the head of `TXQ` (R32). -/
  inflightTxq : s.inflight = true → s.txq ≠ []
  /-- Every transaction to come is legal (R41, R47). -/
  txqLegal : ∀ p ∈ s.txq, legalTxn p = true
  /-- The response to come is legal (R67, R108). -/
  respLegal : ∀ r ∈ s.resp, legalResponse r = true
  /-- No request leads back to Unset (R83). -/
  commitMode : s.commit ≠ some .unset
  /-- `FRAME` is in canonical form. -/
  frameWf : s.frame.wf
  /-- `RP` counts the bytes of `CUR` (R26). -/
  rpCur : s.cur.length ≤ s.rp
  /-- The trace obeys the bus rules and agrees with the sequencer. -/
  traceBus : busAfter s.trace = some s.busState

/-! ### Failures made invisible -/

/-- A trace in which every transaction succeeded. -/
def blindTrace (tr : List Event) : List Event :=
  tr.filterMap fun e =>
    match e with
    | .answer p _ => some (.answer p .success)
    | .txFail _ => none
    | e => some e

/-- The state in which every answer of the transport, past and to come, is `Success`. Two states that differ only in which
transactions fail have the same one. -/
def State.blind (s : State) : State :=
  { s with
    transport := s.transport.map (Option.map fun _ => .success)
    trace := blindTrace s.trace }

end Sys2Proof.Machine
end

