-- ==== Sys2Proof/Certificates/Slice0/Obligations.lean ====
section
/-! DEFINITION. The statements for the provers. The docstring of each names the rule or section it comes from. -/

open Sys2Proof Sys2Proof.Machine

/-! ### Encoding (30_encoding.md) -/

/-- One request of each row of the opcode map, its bytes written out from R60 and R63, decodes to what it stands for. -/
def Obligations.WrittenOutRequestsDecode : Prop :=
  decode [0x01, 0xAE] = .ok (.sendCmd 0xAE, []) ∧
  decode [0x02, 0x55] = .ok (.sendData 0x55, []) ∧
  decode [0x03, 0x03, 0x00, 0x00, 0x01, 0x02] = .ok (.sendArray [0x00, 0x01, 0x02], []) ∧
  decode [0x04] = .ok (.setHmode, []) ∧
  decode [0x05] = .ok (.setPmode, []) ∧
  decode [0x06, 0x02, 0x03] = .ok (.setTextXy 2 3, []) ∧
  decode [0x07, 0x3A, 0x26, 0x01] = .ok (.putChar 0x01263A, []) ∧
  decode [0x08, 0x7F, 0x01, 0x02, 0x03, 0x04, 0x02, 0x00, 0x00, 0x00, 0xAA, 0xBB, 0xCC] =
    .ok (.putImage 127 0x0201 0x0403 [0xAA, 0xBB], [0xCC]) ∧
  decode [0x09, 0x00, 0x01, 0x00, 0x08, 0x00, 0x00, 0x00, 0x00, 0x00] = .ok (.pack 0 1 8 [], []) ∧
  decode [0x0A, 0x01] = .ok (.setup 1, []) ∧
  decode [0x0B, 0x80] = .ok (.setBrightness 128, []) ∧
  decode [0x0C, 0x0C] = .ok (.readMode, [0x0C])

/-- Field assembly (R61), each field as the number that the rule gives it. -/
def Obligations.FieldsAreAssembledLittleEndian : Prop :=
  (∀ (b : Byte) (r : List Byte),
    decode (0x01 :: b :: r) = .ok (.sendCmd b, r) ∧ decode (0x02 :: b :: r) = .ok (.sendData b, r) ∧
    decode (0x0A :: b :: r) = .ok (.setup b, r) ∧ decode (0x0B :: b :: r) = .ok (.setBrightness b, r)) ∧
  (∀ (col row : Byte) (r : List Byte), decode (0x06 :: col :: row :: r) = .ok (.setTextXy col row, r)) ∧
  (∀ (q1 q2 q3 : Byte) (r : List Byte), ∃ cp : BitVec 24, decode (0x07 :: q1 :: q2 :: q3 :: r) = .ok (.putChar cp, r) ∧
    cp.toNat = q1.toNat + 256 * q2.toNat + 65536 * q3.toNat) ∧
  (∀ (q1 q2 : Byte) (payload r : List Byte), payload.length = q1.toNat + 256 * q2.toNat →
    decode (0x03 :: q1 :: q2 :: (payload ++ r)) = .ok (.sendArray payload, r)) ∧
  (∀ (q1 q2 q3 q4 q5 q6 q7 q8 q9 : Byte) (samples r : List Byte),
    samples.length = q6.toNat + 256 * q7.toNat + 65536 * q8.toNat + 16777216 * q9.toNat →
    ∃ w h : BitVec 16,
      decode (0x08 :: q1 :: q2 :: q3 :: q4 :: q5 :: q6 :: q7 :: q8 :: q9 :: (samples ++ r)) =
        .ok (.putImage q1 w h samples, r) ∧
      decode (0x09 :: q1 :: q2 :: q3 :: q4 :: q5 :: q6 :: q7 :: q8 :: q9 :: (samples ++ r)) =
        .ok (.pack q1 w h samples, r) ∧
      w.toNat = q2.toNat + 256 * q3.toNat ∧ h.toNat = q4.toNat + 256 * q5.toNat)

/-- Decoding an encoded request gives it back, whatever follows it on the stream (R59 to R63). -/
def Obligations.DecodeOfEncode : Prop :=
  ∀ (i : Instr) (rest : List Byte), i.wellFormed = true → decode (encode i ++ rest) = .ok (i, rest)

/-- What the decoder reads is the encoding of what it answers: each request has one spelling (R59 to R63). -/
def Obligations.EncodeOfDecode : Prop :=
  ∀ (q : List Byte) (i : Instr) (rest : List Byte), decode q = .ok (i, rest) →
    i.wellFormed = true ∧ q = encode i ++ rest

/-- A request is complete exactly when `ReqLen` bytes of it are there: the decoder answers as soon as they are, and only then;
the bytes after `ReqLen` are left over and decide nothing; and `ReqLen` is the number that R62 gives. -/
def Obligations.RequestEndsAtReqLen : Prop :=
  (∀ (q : List Byte) (n : Nat), reqLen q = some n → n ≤ q.length → ∃ i, decode q = .ok (i, q.drop n)) ∧
  (∀ (q : List Byte) (i : Instr) (rest : List Byte),
    decode q = .ok (i, rest) ↔
      ∃ n, reqLen q = some n ∧ n ≤ q.length ∧ rest = q.drop n ∧ decode (q.take n) = .ok (i, [])) ∧
  ∀ (i : Instr) (rest : List Byte), i.wellFormed = true →
    reqLen (encode i ++ rest) = some (encode i).length ∧
    (encode i).length =
      match i with
      | .setHmode => 1
      | .setPmode => 1
      | .readMode => 1
      | .sendCmd _ => 2
      | .sendData _ => 2
      | .setup _ => 2
      | .setBrightness _ => 2
      | .setTextXy _ _ => 3
      | .putChar _ => 4
      | .sendArray payload => 3 + payload.length
      | .putImage _ _ _ samples => 10 + samples.length
      | .pack _ _ _ samples => 10 + samples.length

/-- The opcode bytes `0x00` and `0x0D` to `0xFF`, and only they, are illegal (R63, R64). -/
def Obligations.IllegalOpcodeBytes : Prop :=
  ∀ (b : Byte) (q : List Byte),
    decode (b :: q) = .error (.illegalOpcode b) ↔ b.toNat = 0 ∨ 0x0D ≤ b.toNat

/-! ### What each request's rule yields (40_framer.md to 43_text_and_controller.md) -/

/-- SEND_CMD and SEND_DATA yield one transaction of two bytes, and write nothing else (R74, R80, R81). -/
def Obligations.SendCmdAndSendDataYieldOneTransaction : Prop :=
  ∀ (b : Byte) (s : State),
    exec (.sendCmd b) s = .next { s with txq := [[0x00, b]], commit := none, resp := some ⟨0x00, []⟩ } ∧
    exec (.sendData b) s = .next { s with txq := [[0x40, b]], commit := none, resp := some ⟨0x00, []⟩ }

/-- SEND_ARRAY yields the chunks of its payload: the laws of R78 and the count of R77; it writes nothing else (R82). -/
def Obligations.SendArrayYieldsTheChunks : Prop :=
  ∀ (payload : List Byte) (s : State), ∃ q : List (List Byte),
    exec (.sendArray payload) s = .next { s with txq := q, commit := none, resp := some ⟨0x00, []⟩ } ∧
    q.flatMap List.tail = payload ∧
    (∀ p ∈ q, p.length ≤ 32) ∧
    (32 ≤ payload.length → ∀ (i : Nat) (p : List Byte), q[i]? = some p → p.tail.length = min 31 (payload.length - 31 * i)) ∧
    (∀ p ∈ q, p.tail = [] → payload = [] ∧ q = [p]) ∧
    (∀ p ∈ q, p.head? = some 0x40) ∧
    (payload.length < 32 → q.length = 1) ∧
    (1 ≤ payload.length → q.length = ⌈(payload.length : ℚ) / 31⌉₊)

/-- SEND_DATA `B` and SEND_ARRAY `[B]` yield the same (R81). -/
def Obligations.SendDataIsSendArrayOfOneByte : Prop :=
  ∀ (b : Byte) (s : State), ∃ t, exec (.sendArray [b]) s = .next t ∧ exec (.sendData b) s = .next t

/-- SET_HMODE and SET_PMODE yield the two commands of R84 and the mode to commit, and write nothing else (R87, R88). -/
def Obligations.ModeSwitchesYieldTwoCommands : Prop :=
  ∀ s : State,
    exec .setHmode s =
      .next { s with txq := [[0x00, 0x20], [0x00, 0x00]], commit := some .horizontal, resp := some ⟨0x00, []⟩ } ∧
    exec .setPmode s =
      .next { s with txq := [[0x00, 0x20], [0x00, 0x02]], commit := some .page, resp := some ⟨0x00, []⟩ }

/-- READ_MODE yields the mode's byte and no transaction, and writes nothing else (R67, R89). -/
def Obligations.ReadModeYieldsTheModeByte : Prop :=
  ∀ s : State, ∃ v : Byte,
    exec .readMode s = .next { s with txq := [], commit := none, resp := some ⟨0x00, [v]⟩ } ∧
    (s.mode = .unset → v = 0x00) ∧ (s.mode = .horizontal → v = 0x01) ∧ (s.mode = .page → v = 0x02)

/-- SET_TEXT_XY with a legal row yields the page select of R72 and the column commands of R73; with another it ends with
BAD_OPERAND and no transaction. It writes nothing else (R98). -/
def Obligations.SetTextXyYieldsThreeCommands : Prop :=
  ∀ (col row : Byte) (s : State),
    (row.toNat < 80 → ∃ page lo hi : Byte,
      exec (.setTextXy col row) s =
        .next { s with txq := [[0x00, page], [0x00, lo], [0x00, hi]], commit := none, resp := some ⟨0x00, []⟩ } ∧
      page.toNat = 0xB0 + row.toNat ∧
      lo.toNat = (0x00 ||| ((8 * col.toNat) &&& 0x0F)) ∧
      hi.toNat = (0x10 ||| (((8 * col.toNat) >>> 4) &&& 0x0F))) ∧
    (80 ≤ row.toNat →
      exec (.setTextXy col row) s = .next { s with txq := [], commit := none, resp := some ⟨0x02, []⟩ })

/-- The equivalent forms of the column commands, and that columns alias modulo 32 (R73). -/
def Obligations.ColumnCommandsAlias : Prop :=
  ∀ col : Byte,
    (colLo col).toNat = (0x00 ||| ((8 * col.toNat) &&& 0x0F)) ∧
    (colHi col).toNat = (0x10 ||| (((8 * col.toNat) >>> 4) &&& 0x0F)) ∧
    colLo col = (if col.toNat % 2 = 1 then 0x08 else 0x00) ∧
    colHi col = 0x10 ||| ((col >>> 1) &&& 0x0F) ∧
    ((colHi col).toNat % 16 * 16 + (colLo col).toNat) = (8 * col.toNat) % 256 ∧
    ∀ col' : Byte, col'.toNat = col.toNat + 32 → colLo col' = colLo col ∧ colHi col' = colHi col

/-- PUT_CHAR yields one transaction with the glyph that R99 gives the codepoint, and writes nothing else (R100). -/
def Obligations.PutCharYieldsTheGlyph : Prop :=
  ∀ (cp : BitVec 24) (s : State), ∃ k : Fin 96,
    k.val = (if 32 ≤ cp.toNat ∧ cp.toNat ≤ 127 then cp.toNat - 32 else 0) ∧
    exec (.putChar cp) s =
      .next { s with txq := [0x40 :: List.ofFn (Config.font k)], commit := none, resp := some ⟨0x00, []⟩ }

/-- SETUP yields the twenty initialisation commands and the mode switch (R101, R102); any other mode code ends with
BAD_OPERAND and no transaction. It writes nothing else. -/
def Obligations.SetupYieldsInitAndModeSwitch : Prop :=
  ∀ (b : Byte) (s : State),
    (b = 0x01 → exec (.setup b) s =
      .next { s with txq := (List.ofFn fun k => [0x00, Config.initSeq k]) ++ [[0x00, 0x20], [0x00, 0x00]],
                     commit := some .horizontal, resp := some ⟨0x00, []⟩ }) ∧
    (b = 0x02 → exec (.setup b) s =
      .next { s with txq := (List.ofFn fun k => [0x00, Config.initSeq k]) ++ [[0x00, 0x20], [0x00, 0x02]],
                     commit := some .page, resp := some ⟨0x00, []⟩ }) ∧
    (b ≠ 0x01 → b ≠ 0x02 →
      exec (.setup b) s = .next { s with txq := [], commit := none, resp := some ⟨0x02, []⟩ })

/-- SET_BRIGHTNESS yields the brightness command and the value, unchanged, both behind the command prefix; it writes nothing
else (R103). -/
def Obligations.SetBrightnessYieldsTwoCommands : Prop :=
  ∀ (v : Byte) (s : State),
    exec (.setBrightness v) s =
      .next { s with txq := [[0x00, Config.contrastCmd], [0x00, v]], commit := none, resp := some ⟨0x00, []⟩ }

/-- PACK on a valid image answers the packed frame, with no transaction: bit `b` of frame byte `p*W + c` is the strict
threshold of the sample of row `8*p + b`, column `c` (R93, R96). It writes `FRAME:0` to `FRAME:(H/8)*W - 1`, no other byte of
FRAME, and nothing else. -/
def Obligations.PackAnswersThePackedFrame : Prop :=
  ∀ (sens : Byte) (w h : BitVec 16) (samples : List Byte) (s : State),
    1 ≤ w.toNat → 1 ≤ h.toNat → h.toNat % 8 = 0 → samples.length = w.toNat * h.toNat →
    ∃ (data : List Byte) (m : Memory),
      exec (.pack sens w h samples) s =
        .next { s with frame := m, txq := [], commit := none, resp := some ⟨0x00, data⟩ } ∧
      data.length = h.toNat / 8 * w.toNat ∧
      (∀ a, a < h.toNat / 8 * w.toNat → m.read a = data[a]?) ∧
      (∀ a, h.toNat / 8 * w.toNat ≤ a → m.read a = s.frame.read a) ∧
      ∀ p c b, p < h.toNat / 8 → c < w.toNat → b < 8 → ∃ byte sample : Byte,
        data[p * w.toNat + c]? = some byte ∧ samples[(8 * p + b) * w.toNat + c]? = some sample ∧
        (byte.getLsbD b = true ↔ sample.toNat > sens.toNat)

/-- PUT_IMAGE on a valid image yields the chunks of the frame that PACK answers for the same operands, leaves the same bytes
in FRAME, and writes nothing else (R96, R97). -/
def Obligations.PutImageSendsWhatPackAnswers : Prop :=
  ∀ (sens : Byte) (w h : BitVec 16) (samples : List Byte) (s : State),
    1 ≤ w.toNat → 1 ≤ h.toNat → h.toNat % 8 = 0 → samples.length = w.toNat * h.toNat →
    ∃ (data : List Byte) (m : Memory),
      exec (.pack sens w h samples) s =
        .next { s with frame := m, txq := [], commit := none, resp := some ⟨0x00, data⟩ } ∧
      exec (.putImage sens w h samples) s =
        .next { s with frame := m, txq := chunks data, commit := none, resp := some ⟨0x00, []⟩ } ∧
      ∃ t, exec (.sendArray data) s = .next t ∧ t.txq = chunks data

/-- PACK and PUT_IMAGE on an image that is not valid (R90) end with INVALID_DIMENSIONS and no transaction, and write nothing
else, no byte of FRAME either (R91, R109). -/
def Obligations.InvalidImagesAreRejected : Prop :=
  ∀ (sens : Byte) (w h : BitVec 16) (samples : List Byte) (s : State),
    ¬ (1 ≤ w.toNat ∧ 1 ≤ h.toNat ∧ h.toNat % 8 = 0 ∧ samples.length = w.toNat * h.toNat) →
    exec (.pack sens w h samples) s = .next { s with txq := [], commit := none, resp := some ⟨0x01, []⟩ } ∧
    exec (.putImage sens w h samples) s = .next { s with txq := [], commit := none, resp := some ⟨0x01, []⟩ }

/-- The threshold is strict (R94), in PACK's answer: a sample equal to `S` is OFF and a greater one ON; with `S = 255` every
frame byte is zero; with `S = 0` a pixel is ON exactly when its sample is not 0. -/
def Obligations.ThresholdIsStrict : Prop :=
  ∀ (sens : Byte) (w h : BitVec 16) (samples : List Byte) (s : State),
    1 ≤ w.toNat → 1 ≤ h.toNat → h.toNat % 8 = 0 → samples.length = w.toNat * h.toNat →
    ∃ (data : List Byte) (m : Memory),
      exec (.pack sens w h samples) s =
        .next { s with frame := m, txq := [], commit := none, resp := some ⟨0x00, data⟩ } ∧
      (∀ p c b byte sample, p < h.toNat / 8 → c < w.toNat → b < 8 →
        data[p * w.toNat + c]? = some byte → samples[(8 * p + b) * w.toNat + c]? = some sample →
        (sample = sens → byte.getLsbD b = false) ∧
        (sens.toNat < sample.toNat → byte.getLsbD b = true) ∧
        (sens = 0 → (byte.getLsbD b = true ↔ sample ≠ 0))) ∧
      (sens = 0xFF → ∀ byte ∈ data, byte = 0x00)

/-- `Pack` is a pure function of the image and the sensitivity, and its length is `(H/8)*W` (R95): from any two states PACK
answers the same. -/
def Obligations.PackIsPure : Prop :=
  ∀ (sens : Byte) (w h : BitVec 16) (samples : List Byte),
    1 ≤ w.toNat → 1 ≤ h.toNat → h.toNat % 8 = 0 → samples.length = w.toNat * h.toNat →
    ∃ data : List Byte, data.length = h.toNat / 8 * w.toNat ∧
      ∀ s : State, ∃ m : Memory,
        exec (.pack sens w h samples) s =
          .next { s with frame := m, txq := [], commit := none, resp := some ⟨0x00, data⟩ }

/-- The rule of every request, with any operands and from any state, yields a next state in which only `TXQ`, `COMMIT`, `RESP`
and FRAME may differ: no request faults or is refused (R18). Requests other than PACK and PUT_IMAGE leave FRAME alone. -/
def Obligations.EveryRequestCompletes : Prop :=
  ∀ (i : Instr) (s : State), ∃ (q : List (List Byte)) (c : Option Mode) (r : Response) (m : Memory),
    exec i s = .next { s with txq := q, commit := c, resp := some r, frame := m } ∧
    (m = s.frame ∨ ∃ sens w h samples, i = .pack sens w h samples ∨ i = .putImage sens w h samples)

/-- Every transaction that a request yields has one of the shapes of R47, and its response is one of R67 and R108. -/
def Obligations.YieldedTransactionsAreLegal : Prop :=
  ∀ (i : Instr) (s t : State), exec i s = .next t →
    (∀ p ∈ t.txq, (∃ c, p = [0x00, c]) ∨ ∃ q : List Byte, p = 0x40 :: q ∧ q.length ≤ 31) ∧
    ∃ r, t.resp = some r ∧
      (r.status = 0x00 ∨ r.status = 0x01 ∨ r.status = 0x02) ∧
      (r.status ≠ 0x00 → r.data = [] ∧ t.txq = [] ∧ t.commit = none) ∧
      (r.data ≠ [] → i = .readMode ∨ ∃ sens w h samples, i = .pack sens w h samples)

/-- Only SET_HMODE, SET_PMODE and SETUP write `MODE` (R21): their rules alone yield a commit, and a step changes `MODE` only
when it writes the commit of a running request, or when reset is asserted. -/
def Obligations.OnlyModeSwitchesWriteMode : Prop :=
  (∀ (i : Instr) (s t : State), exec i s = .next t →
    t.mode = s.mode ∧
    (t.commit = none ∨ (i = .setHmode ∧ t.commit = some .horizontal) ∨ (i = .setPmode ∧ t.commit = some .page) ∨
      (i = .setup 0x01 ∧ t.commit = some .horizontal) ∨ (i = .setup 0x02 ∧ t.commit = some .page))) ∧
  ∀ s t : State, step s = .next t → t.mode ≠ s.mode →
    s.resetLine.head? = some true ∨ (s.phase = .exec ∧ s.commit = some t.mode)

/-- Only READ_MODE reads `MODE` (R22): the rule of any other request yields the same in every mode. -/
def Obligations.OnlyReadModeReadsMode : Prop :=
  ∀ (i : Instr) (s : State) (m : Mode), i ≠ .readMode →
    ∃ t, exec i s = .next t ∧ exec i { s with mode := m } = .next { t with mode := m }

/-! ### The engine (10_state.md, 60_exceptions.md, 70_reset_and_hazards.md) -/

/-- When a byte completes a request, the step is the request's rule on the state that has consumed it (R32). -/
def Obligations.StepRunsTheDecodedRequest : Prop :=
  ∀ (s : State) (b : Byte) (rest : List Byte) (i : Instr),
    s.resetLine.head? ≠ some true → s.fault = false → s.req = b :: rest →
    ((s.phase = .idle ∧ decode [b] = .ok (i, [])) →
      step s = exec i { s with resetLine := s.resetLine.tail, req := rest, rp := s.rp + 1, cur := [b], phase := .exec }) ∧
    ((s.phase = .recv ∧ decode (s.cur ++ [b]) = .ok (i, [])) →
      step s =
        exec i { s with resetLine := s.resetLine.tail, req := rest, rp := s.rp + 1, cur := s.cur ++ [b], phase := .exec })

/-- The step after a request is put before the block (entry 12 of the assumption log: the model's own operation) runs exactly
that request. -/
def Obligations.StepRunsThePlacedRequest : Prop :=
  ∀ (i : Instr) (s : State), i.wellFormed = true →
    step (s.withRequest (encode i)) =
      exec i { s with fault := false, phase := .exec, cur := encode i, rp := s.rp + (encode i).length, resetLine := [] }

/-- Request bytes are consumed one at a time and in order, each once, `RP` counting them; where none is offered the block
waits, and in `EXEC` it consumes none (R26, R35). That a wait is a step that changes nothing is the model's form (entry 5 of
the assumption log). -/
def Obligations.RequestBytesAreConsumedInOrder : Prop :=
  ∀ s t : State, s.resetLine.head? ≠ some true → step s = .next t →
    (t.req = s.req ∧ t.rp = s.rp ∧
      (s.phase = .exec ∨ (s.req = [] ∧ t = { s with resetLine := s.resetLine.tail }))) ∨
    ∃ b, s.req = b :: t.req ∧ t.rp = s.rp + 1 ∧
      ((s.phase = .idle ∧ t.cur = [b]) ∨ (s.phase = .recv ∧ t.cur = s.cur ++ [b]))

/-- A byte that does not complete the request is kept, and nothing is issued for it (R32, R62). -/
def Obligations.PartOfARequestIsKept : Prop :=
  ∀ (s : State) (b : Byte) (rest : List Byte),
    s.resetLine.head? ≠ some true → s.fault = false → s.req = b :: rest →
    ((s.phase = .idle ∧ decode [b] = .error .incomplete) →
      step s =
        .next { s with resetLine := s.resetLine.tail, req := rest, rp := s.rp + 1, cur := [b], phase := .recv }) ∧
    ((s.phase = .recv ∧ decode (s.cur ++ [b]) = .error .incomplete) →
      step s =
        .next { s with resetLine := s.resetLine.tail, req := rest, rp := s.rp + 1, cur := s.cur ++ [b], phase := .recv })

/-- The `EXEC` clauses of R32 on a running request: the head of `TXQ` is issued to `DEV_ADDR` if it is not in flight; the
transport is asked for its answer, and may have none yet; an answer, `Failure` with its diagnostic event (R111), frees it; with
none left, `COMMIT` is written and `RESP` emitted. It is the model's reading that one step runs the three clauses in order,
so that issue, answer and the end of the request may fall in one step (entry 10 of the assumption log, DEDUCED), and that the
answers come from the list `transport` of polls (entry 2). -/
def Obligations.RunningRequestSteps : Prop :=
  ∀ s : State, s.resetLine.head? ≠ some true → s.fault = false → s.phase = .exec →
    (∀ p q, s.txq = p :: q →
      (s.transport = [] →
        step s = .next { s with
          resetLine := s.resetLine.tail
          inflight := true
          trace := s.trace ++ (if s.inflight = true then [] else [.issue s.devAddr p]) }) ∧
      (∀ as, s.transport = none :: as →
        step s = .next { s with
          resetLine := s.resetLine.tail
          inflight := true
          transport := as
          trace := s.trace ++ (if s.inflight = true then [] else [.issue s.devAddr p]) }) ∧
      (∀ r as, s.transport = some r :: as → q ≠ [] →
        step s = .next { s with
          resetLine := s.resetLine.tail
          inflight := false
          txq := q
          transport := as
          trace := s.trace ++ (if s.inflight = true then [] else [.issue s.devAddr p]) ++
            (if r = .failure then [.answer p .failure, .txFail p] else [.answer p .success]) }) ∧
      (∀ r as x, s.transport = some r :: as → q = [] → s.resp = some x →
        step s = .next { s with
          resetLine := s.resetLine.tail
          inflight := false
          txq := []
          transport := as
          mode := s.commit.getD s.mode
          commit := none
          resp := none
          cur := []
          frame := []
          phase := .idle
          trace := s.trace ++ (if s.inflight = true then [] else [.issue s.devAddr p]) ++
            (if r = .failure then [.answer p .failure, .txFail p] else [.answer p .success]) ++ [.respond x] })) ∧
    (∀ x, s.txq = [] → s.inflight = false → s.resp = some x →
      step s = .next { s with
        resetLine := s.resetLine.tail
        mode := s.commit.getD s.mode
        commit := none
        resp := none
        cur := []
        frame := []
        phase := .idle
        trace := s.trace ++ [.respond x] })

/-- An illegal opcode byte is consumed, answered with `[0xFF]`, and enters `FAULT`; nothing else changes but that `CUR` is the
byte (R32, R64, R112). The block then takes no step, and the run has not ended well. -/
def Obligations.IllegalOpcodeEntersFault : Prop :=
  ∀ (s : State) (b : Byte) (rest : List Byte),
    s.resetLine.head? ≠ some true → s.fault = false → s.phase = .idle → s.req = b :: rest →
    (b.toNat = 0 ∨ 0x0D ≤ b.toNat) →
    ∃ t, t = { s with resetLine := s.resetLine.tail, req := rest, rp := s.rp + 1, cur := [b], fault := true,
                      phase := .faulted, trace := s.trace ++ [.respond ⟨0xFF, []⟩] } ∧
      step s = .next t ∧ t.endedWell = false ∧
      (t.resetLine.head? ≠ some true → step t = .fault .faulted)

/-- While `FAULT = 1` the block takes no step, and only reset clears `FAULT` (R25, R113): no agent's step leaves it but one
that resets every register (R33, R121). That "no step" is the fault `faulted` is the model's form (entry 4 of the assumption
log), and that the bytes not yet consumed stay on `REQ` through reset, `t.req = s.req`, is the model's choice (entry 20, a
DESIGN CHOICE, unsafe), said by none of these rules. -/
def Obligations.OnlyResetLeavesFault : Prop :=
  ∀ s : State, s.fault = true →
    (s.resetLine.head? ≠ some true → step s = .fault .faulted) ∧
    ∀ t, AgentStep s t → t.fault = false →
      t.phase = .idle ∧ t.mode = .unset ∧ t.devAddr = Config.devAddr ∧ t.rp = 0 ∧ t.cur = [] ∧ t.txq = [] ∧
      t.inflight = false ∧ t.commit = none ∧ t.resp = none ∧ t.req = s.req ∧ issued t.trace = issued s.trace ∧
      responses t.trace = responses s.trace

/-- Reset, asserted before any step in whatever state the block is, sets every register (R121), and the model's state after
reset has the same values. -/
def Obligations.ResetSetsEveryRegister : Prop :=
  (∀ (s : State) (rest : List Bool), s.resetLine = true :: rest →
    ∃ t, step s = .next t ∧ t.mode = .unset ∧ t.mode.code = 0b00 ∧ t.fault = false ∧ t.devAddr = Config.devAddr ∧ t.rp = 0 ∧
      t.phase = .idle ∧ t.cur = [] ∧ t.txq = [] ∧ t.inflight = false ∧ t.commit = none ∧ t.resp = none) ∧
  State.reset.mode = .unset ∧ State.reset.fault = false ∧ State.reset.devAddr = Config.devAddr ∧ State.reset.rp = 0 ∧
    State.reset.phase = .idle ∧ State.reset.cur = [] ∧ State.reset.txq = [] ∧ State.reset.inflight = false ∧
    State.reset.commit = none ∧ State.reset.resp = none

/-- Reset in the middle of a request abandons it (R122, R123): nothing is issued, answered or emitted, a transaction in flight
stays without an answer, and the next byte consumed is taken as an opcode. That FRAME is discarded, that the bytes not yet
consumed and the transport's coming answers stay, and that the trace records the transaction left in flight, is the model's
choice (entries 6, 8 and 20 of the assumption log). -/
def Obligations.ResetAbandonsTheRequest : Prop :=
  ∀ s t : State, Inv s → s.resetLine.head? = some true → step s = .next t →
    issued t.trace = issued s.trace ∧ responses t.trace = responses s.trace ∧ diagnostics t.trace = diagnostics s.trace ∧
    transactions t.trace =
      transactions s.trace ++ (if s.inflight = true then (s.txq.take 1).map fun p => ⟨p, none⟩ else []) ∧
    t.mode = .unset ∧ t.txq = [] ∧ t.commit = none ∧ t.resp = none ∧ t.frame = [] ∧ t.req = s.req ∧
    t.transport = s.transport ∧
    ∀ b rest u, t.req = b :: rest → t.resetLine.head? ≠ some true → step t = .next u → u.cur = [b]

/-- A hold has no time limit (R115): with no byte offered between or inside requests, or with the transport never answering,
any number of steps changes nothing. That a held step is a step, and changes nothing, is the model's form (entry 5 of the
assumption log); that the transport never answers is an empty list of polls (entry 2). -/
def Obligations.HoldsLastForEver : Prop :=
  ∀ (n : Nat) (s : State), s.resetLine = [] → s.fault = false →
    (((s.phase = .idle ∨ s.phase = .recv) ∧ s.req = []) ∨
      (s.phase = .exec ∧ s.inflight = true ∧ s.transport = [])) →
    run n s = .next s

/-- The block is never refused a step, and stops only in `FAULT` (R18); that it stops there is the fault `faulted`, the model's
form (entry 4 of the assumption log), and so is the stop in `PHASE = FAULTED` without `FAULT` (entry 9). -/
def Obligations.StepStopsOnlyInFault : Prop :=
  ∀ s : State, (∃ t, step s = .next t) ∨
    (step s = .fault .faulted ∧ s.resetLine.head? ≠ some true ∧ (s.fault = true ∨ s.phase = .faulted))

/-! ### Memory (20_memory.md) -/

/-- `PAYLOAD` and `SAMPLE` are the variable part of the request in `CUR`, in stream order (R36). -/
def Obligations.BuffersHoldTheVariablePart : Prop :=
  ∀ s : State,
    (∀ payload, decode s.cur = .ok (.sendArray payload, []) → s.payload = payload) ∧
    (∀ sens w h samples, decode s.cur = .ok (.putImage sens w h samples, []) → s.sample = samples) ∧
    ∀ sens w h samples, decode s.cur = .ok (.pack sens w h samples, []) → s.sample = samples

/-- `MemWrite(FRAME:a, 1, v)` sets byte `a` and no other (R38). It keeps the canonical form, which is no rule of the spec: that
FRAME is a list of index and byte with rising indices is the model's choice (entry 6 of the assumption log). -/
def Obligations.FrameWriteSetsOneByte : Prop :=
  ∀ (m : Memory) (a : Nat) (v : Byte),
    (m.write a v).read a = some v ∧ (∀ b, b ≠ a → (m.write a v).read b = m.read b) ∧ (m.wf → (m.write a v).wf)

/-- Two frames in canonical form that read alike are equal: a law of the form in which the model holds FRAME, a list of index and
byte with rising indices (entry 6 of the assumption log, a DESIGN CHOICE), and no rule of the spec. -/
def Obligations.CanonicalFramesAreEqual : Prop :=
  ∀ m m' : Memory, m.wf → m'.wf → (∀ a, m.read a = m'.read a) → m = m'

/-! ### The invariant -/

/-- The invariant holds after reset. -/
def Obligations.ResetStateIsGood : Prop := Inv State.reset

/-- Every step keeps the invariant, from every state that meets it (R20, R24, R31 to R33, R41, R47, R48, R52 to R55, R108,
R111). The trace that the invariant speaks of, with its event `abandon`, is the model's record (entry 8 of the assumption log). -/
def Obligations.StepKeepsTheInvariant : Prop :=
  ∀ s t : State, Inv s → step s = .next t → Inv t

/-- Every step of every agent keeps the invariant, from every state that meets it (R19): the engine's, the host's writes of
request bytes and its resets, and the transport's settling of its answers. The form of the host's and the transport's steps is
the model's (entries 1, 2 and 3 of the assumption log). -/
def Obligations.AgentStepKeepsTheInvariant : Prop :=
  ∀ s t : State, Inv s → AgentStep s t → Inv t

/-- Every state that any interleaving of the three agents' steps reaches meets the invariant (R19). -/
def Obligations.ReachableStatesAreGood : Prop :=
  ∀ s : State, Reachable s → Inv s

/-- In every state that meets the invariant, the bus log is in step with the sequencer: each transaction issued, to `DEV_ADDR`,
has been answered or abandoned, in order, but for the one in flight (R41, R48, R52). The record of an abandoned one is the
model's (entry 8 of the assumption log). -/
def Obligations.TransactionsGoOutOneAtATime : Prop :=
  ∀ s : State, Inv s →
    (issued s.trace).map Prod.snd =
      (transactions s.trace).map TxRecord.payload ++ (if s.inflight = true then s.txq.take 1 else []) ∧
    ∀ x ∈ issued s.trace, x.1 = Config.devAddr ∧ 1 ≤ x.2.length ∧ x.2.length ≤ 32 ∧
      (x.2.head? = some 0x00 ∨ x.2.head? = some 0x40)

/-- In every state that meets the invariant, the diagnostic events are exactly the payloads of the failed transactions, in
order (R111). -/
def Obligations.DiagnosticsAreTheFailures : Prop :=
  ∀ s : State, Inv s →
    diagnostics s.trace =
      ((transactions s.trace).filter fun x => x.answer = some .failure).map TxRecord.payload

/-! ### Whole runs -/

/-- Failures are swallowed (R79, R110): a run goes the same way whichever transactions fail. Turning every answer, past and to
come, into `Success` turns a run of any length into the run from the state so changed. -/
def Obligations.FailuresChangeNothing : Prop :=
  ∀ (n : Nat) (s : State),
    (∀ t, run n s = .next t → run n s.blind = .next t.blind) ∧
    (∀ f, run n s = .fault f → run n s.blind = .fault f)

/-- A request offered to an idle block runs to its response (R32, R42, R52 to R54): its bytes are consumed, its rule is run,
each of its transactions is issued and answered once, in order, whatever the waits and answers `polls` of the transport,
`COMMIT` is written, the response is emitted, and the block is idle again with the bytes after the request still to come. The
number of steps, one for each poll, is the model's: a step runs the three `EXEC` clauses, so that an answer, and the end of the
request with the last one, come in the step that asks for it (entry 10 of the assumption log, DEDUCED; the polls: entry 2). -/
def Obligations.RequestRunsToItsResponse : Prop :=
  ∀ (i : Instr) (s : State) (rest : List Byte),
    i.wellFormed = true → s.phase = .idle → s.fault = false → s.inflight = false → s.resetLine = [] →
    s.req = encode i ++ rest →
    ∃ t r,
      exec i { s with req := rest, rp := s.rp + (encode i).length, cur := encode i, phase := .exec } = .next t ∧
      t.resp = some r ∧
      ∀ (answers : List Answer) (polls more : List (Option Answer)),
        answers.length = t.txq.length → polls.filterMap id = answers → polls.getLast? ≠ some none →
        s.transport = polls ++ more →
        run ((encode i).length + max 1 polls.length) s =
          .next { s with
            req := rest
            rp := s.rp + (encode i).length
            mode := t.commit.getD s.mode
            cur := []
            txq := []
            commit := none
            resp := none
            frame := []
            transport := more
            trace := s.trace ++
              ((t.txq.zip answers).flatMap fun x => .issue s.devAddr x.1 :: answerEvents x.1 x.2) ++ [.respond r] }

/-- A stream of whole requests is served (R42, R53, R54, R141). Each request has its plan, which its rule yields from every state
in the mode that the requests before it leave. For any answers of the transport, each given when it is first asked for, the run
shows, request after request and nothing in between, the transactions of the plan in order, each with its answer, and then the
plan's response; the commits are in `MODE`, the block is idle again, and the bytes after the requests are still to come. The
answers are the model's list of polls (entry 2 of the assumption log). -/
def Obligations.RequestStreamIsServed : Prop :=
  ∀ (is : List Instr) (s : State) (rest : List Byte),
    (∀ i ∈ is, i.wellFormed = true) → Inv s → s.phase = .idle → s.resetLine = [] → s.req = is.flatMap encode ++ rest →
    ∃ (n : Nat) (plans : List Plan),
      plans.length = is.length ∧
      (∀ (j : Nat) (i : Instr) (p : Plan), is[j]? = some i → plans[j]? = some p →
        ∀ v : State, v.mode = modeAfter s.mode (plans.take j) → ∃ m : Memory,
          exec i v = .next { v with txq := p.txq, commit := p.commit, resp := some p.resp, frame := m }) ∧
      ∀ (answers : List (List Answer)) (more : List (Option Answer)),
        answers.map List.length = plans.map (fun p => p.txq.length) →
        s.transport = answers.flatten.map some ++ more →
        run n s = .next { s with
          req := rest
          rp := s.rp + (is.flatMap encode).length
          mode := modeAfter s.mode plans
          transport := more
          trace := s.trace ++ (plans.zip answers).flatMap fun x => x.1.events s.devAddr x.2 }

/-- The response byte stream `RESP` (R42, R67): a step appends to it only where a running request ends, then the status byte and
after it the result bytes of its response, or where an illegal opcode is consumed, then `0xFF` alone. The result bytes are, for
PACK with status `0x00`, the bytes of the packed frame in index order; for READ_MODE the mode's byte; for every other request
and every other status, none. -/
def Obligations.ResponseStreamCarriesTheAnswers : Prop :=
  (∀ s t : State, step s = .next t →
    t.respStream = s.respStream ∨
    (s.resetLine.head? ≠ some true ∧ s.phase = .exec ∧ t.phase = .idle ∧
      ∃ r, s.resp = some r ∧ t.respStream = s.respStream ++ r.status :: r.data) ∨
    (s.resetLine.head? ≠ some true ∧ (s.phase = .idle ∨ s.phase = .recv) ∧ t.fault = true ∧
      t.respStream = s.respStream ++ [0xFF])) ∧
  (∀ (s t : State) (r : Response), s.resetLine.head? ≠ some true → s.phase = .exec → s.resp = some r → step s = .next t →
    t.phase = .idle → t.respStream = s.respStream ++ r.status :: r.data) ∧
  (∀ s t : State, s.fault = false → s.resetLine.head? ≠ some true → step s = .next t → t.fault = true →
    t.respStream = s.respStream ++ [0xFF]) ∧
  ∀ (i : Instr) (s t : State), exec i s = .next t → ∃ r, t.resp = some r ∧
    (r.status ≠ 0x00 → r.data = []) ∧
    match i with
    | .pack _ w h _ => r.status = 0x00 →
        r.data.length = h.toNat / 8 * w.toNat ∧ ∀ a, a < h.toNat / 8 * w.toNat → t.frame.read a = r.data[a]?
    | .readMode => ∃ v : Byte, r.data = [v] ∧ (s.mode = .unset → v = 0x00) ∧ (s.mode = .horizontal → v = 0x01) ∧
        (s.mode = .page → v = 0x02)
    | _ => r.data = []

/-- The write of `COMMIT` (R54, R85): a step of a running request that does not end it leaves `MODE` and the responses; the one
that ends it finds every transaction answered, writes `COMMIT` to `MODE`, whatever the answers were, and emits `RESP`. That a
step which does not end the request leaves a transaction to be answered is the model's reading: the last answer and the end of
the request fall in one step (entry 10 of the assumption log, DEDUCED). -/
def Obligations.CommitComesAfterTheLastAnswer : Prop :=
  ∀ s t : State, Inv s → s.phase = .exec → s.resetLine.head? ≠ some true → step s = .next t →
    (t.phase = .exec → t.mode = s.mode ∧ t.commit = s.commit ∧ responses t.trace = responses s.trace ∧ t.txq ≠ []) ∧
    (t.phase ≠ .exec → t.phase = .idle ∧ t.mode = s.commit.getD s.mode ∧
      (∃ r, s.resp = some r ∧ responses t.trace = responses s.trace ++ [r] ∧ t.trace.getLast? = some (.respond r)) ∧
      (issued t.trace).map Prod.snd = (transactions t.trace).map TxRecord.payload)

/-- The addressing-mode state machine (R83): what each event does to `MODE`, from any of its states, and the transactions that
go out. A request is offered to an idle block, and the transport has an answer for each of its transactions, Success or Failure,
each after any number of waits; the answers are the model's list of polls (entry 2 of the assumption log). -/
def Obligations.ModeFollowsItsStateMachine : Prop :=
  (∀ (i : Instr) (s : State) (rest : List Byte),
    i.wellFormed = true → s.phase = .idle → s.fault = false → s.inflight = false → s.resetLine = [] →
    s.req = encode i ++ rest →
    ∃ (sent : List (List Byte)) (mode : Mode),
      (match i with
      | .setHmode => mode = .horizontal ∧ sent = [[0x00, 0x20], [0x00, 0x00]]
      | .setPmode => mode = .page ∧ sent = [[0x00, 0x20], [0x00, 0x02]]
      | .setup b =>
        (b = 0x01 → mode = .horizontal ∧
          sent = (List.ofFn fun k => [0x00, Config.initSeq k]) ++ [[0x00, 0x20], [0x00, 0x00]]) ∧
        (b = 0x02 → mode = .page ∧
          sent = (List.ofFn fun k => [0x00, Config.initSeq k]) ++ [[0x00, 0x20], [0x00, 0x02]]) ∧
        (b ≠ 0x01 → b ≠ 0x02 → mode = s.mode ∧ sent = [])
      | _ => mode = s.mode ∧
        ∃ u, exec i { s with req := rest, rp := s.rp + (encode i).length, cur := encode i, phase := .exec } = .next u ∧
          sent = u.txq) ∧
      (sent.length ≤ (s.transport.filterMap id).length →
        ∃ (n : Nat) (t : State), run n s = .next t ∧ t.phase = .idle ∧ t.fault = false ∧ t.req = rest ∧ t.mode = mode ∧
          issued t.trace = issued s.trace ++ sent.map (fun p => (s.devAddr, p)))) ∧
  ∀ (s : State) (rest : List Bool), s.resetLine = true :: rest →
    ∃ t, step s = .next t ∧ t.mode = .unset ∧ issued t.trace = issued s.trace
end

