-- ==== Sys2Proof/Laws/Decode.lean ====
section
/-! SUPPORT. Small laws of the decoder and the encoder: fields, opcodes, the variable part, and when a request is complete
(R60 to R62). -/

namespace Sys2Proof

/-! ### Fields -/

theorem append_byte_toNat {n : Nat} (x : BitVec n) (y : Byte) : (x ++ y).toNat = x.toNat * 256 + y.toNat := by
  rw [BitVec.toNat_append, ← Nat.shiftLeft_add_eq_or_of_lt y.isLt, Nat.shiftLeft_eq]

theorem fieldByte_toNat {n : Nat} (v : BitVec n) (k : Nat) : (fieldByte v k).toNat = v.toNat / 2 ^ (8 * k) % 256 := by
  simp [fieldByte, BitVec.extractLsb'_toNat, Nat.shiftRight_eq_div_pow]

/-- `f0 + 256*f1` (R44, R61). -/
theorem le16_toNat (a b : Byte) : (le16 a b).toNat = a.toNat + 256 * b.toNat := by
  rw [le16, append_byte_toNat]; omega

theorem le24_toNat (a b c : Byte) : (le24 a b c).toNat = a.toNat + 256 * b.toNat + 65536 * c.toNat := by
  rw [le24, append_byte_toNat, append_byte_toNat]; omega

theorem le32_toNat (a b c d : Byte) :
    (le32 a b c d).toNat = a.toNat + 256 * b.toNat + 65536 * c.toNat + 16777216 * d.toNat := by
  rw [le32, append_byte_toNat, append_byte_toNat, append_byte_toNat]; omega

@[simp] theorem le16_fieldByte (v : BitVec 16) : le16 (fieldByte v 0) (fieldByte v 1) = v := by
  apply BitVec.eq_of_toNat_eq
  have := v.isLt
  simp only [le16_toNat, fieldByte_toNat]
  omega

@[simp] theorem le24_fieldByte (v : BitVec 24) : le24 (fieldByte v 0) (fieldByte v 1) (fieldByte v 2) = v := by
  apply BitVec.eq_of_toNat_eq
  have := v.isLt
  simp only [le24_toNat, fieldByte_toNat]
  omega

@[simp] theorem le32_fieldByte (v : BitVec 32) :
    le32 (fieldByte v 0) (fieldByte v 1) (fieldByte v 2) (fieldByte v 3) = v := by
  apply BitVec.eq_of_toNat_eq
  have := v.isLt
  simp only [le32_toNat, fieldByte_toNat]
  omega

@[simp] theorem fieldByte_le16_0 (a b : Byte) : fieldByte (le16 a b) 0 = a := by
  apply BitVec.eq_of_toNat_eq
  simp only [le16_toNat, fieldByte_toNat]
  omega

@[simp] theorem fieldByte_le16_1 (a b : Byte) : fieldByte (le16 a b) 1 = b := by
  apply BitVec.eq_of_toNat_eq
  simp only [le16_toNat, fieldByte_toNat]
  omega

@[simp] theorem fieldByte_le24_0 (a b c : Byte) : fieldByte (le24 a b c) 0 = a := by
  apply BitVec.eq_of_toNat_eq
  simp only [le24_toNat, fieldByte_toNat]
  omega

@[simp] theorem fieldByte_le24_1 (a b c : Byte) : fieldByte (le24 a b c) 1 = b := by
  apply BitVec.eq_of_toNat_eq
  simp only [le24_toNat, fieldByte_toNat]
  omega

@[simp] theorem fieldByte_le24_2 (a b c : Byte) : fieldByte (le24 a b c) 2 = c := by
  apply BitVec.eq_of_toNat_eq
  simp only [le24_toNat, fieldByte_toNat]
  omega

@[simp] theorem fieldByte_le32_0 (a b c d : Byte) : fieldByte (le32 a b c d) 0 = a := by
  apply BitVec.eq_of_toNat_eq
  simp only [le32_toNat, fieldByte_toNat]
  omega

@[simp] theorem fieldByte_le32_1 (a b c d : Byte) : fieldByte (le32 a b c d) 1 = b := by
  apply BitVec.eq_of_toNat_eq
  simp only [le32_toNat, fieldByte_toNat]
  omega

@[simp] theorem fieldByte_le32_2 (a b c d : Byte) : fieldByte (le32 a b c d) 2 = c := by
  apply BitVec.eq_of_toNat_eq
  simp only [le32_toNat, fieldByte_toNat]
  omega

@[simp] theorem fieldByte_le32_3 (a b c d : Byte) : fieldByte (le32 a b c d) 3 = d := by
  apply BitVec.eq_of_toNat_eq
  simp only [le32_toNat, fieldByte_toNat]
  omega

/-! ### Opcodes -/

@[simp] theorem Opcode.ofByte_byte (o : Opcode) : Opcode.ofByte o.byte = some o := by cases o <;> rfl

/-- A defined opcode byte is its row's (R63). -/
theorem Opcode.ofByte_eq_some (b : Byte) (o : Opcode) (h : Opcode.ofByte b = some o) : b = o.byte := by
  apply BitVec.eq_of_toNat_eq
  unfold Opcode.ofByte at h
  split at h <;> first | (cases h; assumption) | cases h

/-- The illegal opcode bytes (R64). -/
theorem Opcode.ofByte_eq_none (b : Byte) : Opcode.ofByte b = none ↔ b.toNat = 0 ∨ 13 ≤ b.toNat := by
  have := b.isLt
  unfold Opcode.ofByte
  split <;> simp_all
  omega

/-! ### The variable part -/

theorem takeBytes_append (xs r : List Byte) (n : Nat) (h : n = xs.length) : takeBytes n (xs ++ r) = some (xs, r) := by
  subst h
  simp [takeBytes]

theorem takeBytes_eq_some (n : Nat) (q a r : List Byte) (h : takeBytes n q = some (a, r)) :
    q = a ++ r ∧ a.length = n := by
  unfold takeBytes at h
  split at h
  · cases h
  · simp only [Option.some.injEq, Prod.mk.injEq] at h
    obtain ⟨rfl, rfl⟩ := h
    exact ⟨(List.take_append_drop n q).symm, by simp; omega⟩

/-! ### When a request is complete -/

theorem takeBytes_isSome (n : Nat) (q : List Byte) : (takeBytes n q).isSome = decide (n ≤ q.length) := by
  unfold takeBytes
  split <;> simp_all

/-- The decoder's three answers, by the opcode and `ReqLen` (R62, R64): it gives a request exactly when `ReqLen` is known and
that many bytes are there, and the bytes after the request are the ones after `ReqLen`. -/
theorem decode_cases (q : List Byte) :
    (∃ op args, q = op :: args ∧ Opcode.ofByte op = none ∧ decode q = .error (.illegalOpcode op)) ∨
    ((∀ n, reqLen q = some n → q.length < n) ∧ (∀ op, q.head? = some op → Opcode.ofByte op ≠ none) ∧
      decode q = .error .incomplete) ∨
    (∃ i n, reqLen q = some n ∧ n ≤ q.length ∧ decode q = .ok (i, q.drop n)) := by
  cases q with
  | nil => exact Or.inr (Or.inl ⟨by simp [reqLen], by simp, rfl⟩)
  | cons op args =>
    cases ho : Opcode.ofByte op with
    | none => exact Or.inl ⟨op, args, rfl, ho, by simp [decode, ho]⟩
    | some o =>
      right
      cases o
      case sendArray =>
        match args with
        | [] | [_] => left; simp [reqLen, ho, decode, decodeOperands, fieldsFA, Opcode.format, Format.reqLen]
        | l0 :: l1 :: r =>
          by_cases hl : r.length < (le16 l0 l1).toNat
          · left
            simp [reqLen, ho, decode, decodeOperands, fieldsFA, Opcode.format, Format.reqLen, takeBytes, hl]
            omega
          · right
            simp [reqLen, ho, decode, decodeOperands, fieldsFA, Opcode.format, Format.reqLen, takeBytes, hl]
            exact ⟨by omega, by rw [show 3 + (le16 l0 l1).toNat = (le16 l0 l1).toNat + 3 by omega]; rfl⟩
      case putImage | pack =>
        match args with
        | [] | [_] | [_, _] | [_, _, _] | [_, _, _, _] | [_, _, _, _, _] | [_, _, _, _, _, _]
        | [_, _, _, _, _, _, _] | [_, _, _, _, _, _, _, _] =>
          left; simp [reqLen, ho, decode, decodeOperands, fieldsFI, Opcode.format, Format.reqLen]
        | s :: w0 :: w1 :: h0 :: h1 :: n0 :: n1 :: n2 :: n3 :: r =>
          by_cases hl : r.length < (le32 n0 n1 n2 n3).toNat
          · left
            simp [reqLen, ho, decode, decodeOperands, fieldsFI, Opcode.format, Format.reqLen, takeBytes, hl]
            omega
          · right
            simp [reqLen, ho, decode, decodeOperands, fieldsFI, Opcode.format, Format.reqLen, takeBytes, hl]
            exact ⟨by omega, by rw [show 10 + (le32 n0 n1 n2 n3).toNat = (le32 n0 n1 n2 n3).toNat + 10 by omega]; rfl⟩
      case setTextXy =>
        match args with
        | [] | [_] => left; simp [reqLen, ho, decode, decodeOperands, fieldsFXY, Opcode.format, Format.reqLen]
        | _ :: _ :: _ => right; simp [reqLen, ho, decode, decodeOperands, fieldsFXY, Opcode.format, Format.reqLen]
      case putChar =>
        match args with
        | [] | [_] | [_, _] => left; simp [reqLen, ho, decode, decodeOperands, fieldsFC, Opcode.format, Format.reqLen]
        | _ :: _ :: _ :: _ => right; simp [reqLen, ho, decode, decodeOperands, fieldsFC, Opcode.format, Format.reqLen]
      case setHmode | setPmode | readMode =>
        right; simp [reqLen, ho, decode, decodeOperands, Opcode.format, Format.reqLen]
      all_goals
        match args with
        | [] => left; simp [reqLen, ho, decode, decodeOperands, fieldsFB, Opcode.format, Format.reqLen]
        | _ :: _ => right; simp [reqLen, ho, decode, decodeOperands, fieldsFB, Opcode.format, Format.reqLen]

theorem Format.reqLen_append (f : Format) (args r : List Byte) (n : Nat) (h : f.reqLen args = some n) :
    f.reqLen (args ++ r) = some n := by
  cases f
  case fa =>
    match args, h with
    | _ :: _ :: _, h => exact h
  case fi =>
    match args, h with
    | _ :: _ :: _ :: _ :: _ :: _ :: _ :: _ :: _ :: _, h => exact h
  all_goals exact h

theorem Format.reqLen_first_known (f : Format) (args : List Byte) (b : Byte) (n : Nat) (h0 : f.reqLen args = none)
    (h : f.reqLen (args ++ [b]) = some n) : args.length + 2 ≤ n := by
  cases f
  case fa =>
    match args, h0, h with
    | [], _, h => cases h
    | [_], _, h => cases h; simp
  case fi =>
    match args, h0, h with
    | [], _, h | [_], _, h | [_, _], _, h | [_, _, _], _, h | [_, _, _, _], _, h | [_, _, _, _, _], _, h
    | [_, _, _, _, _, _], _, h | [_, _, _, _, _, _, _], _, h => cases h
    | [_, _, _, _, _, _, _, _], _, h => cases h; simp
  all_goals cases h0

/-- Once `ReqLen` is known, later bytes do not change it (R62). -/
theorem reqLen_append (q r : List Byte) (n : Nat) (h : reqLen q = some n) : reqLen (q ++ r) = some n := by
  match q, h with
  | op :: args, h =>
    simp only [reqLen, List.cons_append] at h ⊢
    split at h
    · cases h
    · exact Format.reqLen_append _ _ _ _ h

/-- When `ReqLen` becomes known, no byte of the variable part is there yet (R62). -/
theorem reqLen_first_known (q : List Byte) (b : Byte) (n : Nat) (h0 : reqLen q = none) (h : reqLen (q ++ [b]) = some n)
    (hq : q ≠ []) : q.length + 1 ≤ n := by
  match q, hq with
  | op :: args, _ =>
    simp only [reqLen, List.cons_append] at h h0
    split at h0
    · simp_all
    · rename_i o ho
      rw [ho] at h
      exact Format.reqLen_first_known _ _ _ _ h0 h

/-- A byte more makes a beginning of a request a beginning or the whole, never more than the whole (R62). -/
theorem decode_snoc (q : List Byte) (b : Byte) (hq : q ≠ []) (h : decode q = .error .incomplete) :
    decode (q ++ [b]) = .error .incomplete ∨ ∃ i, decode (q ++ [b]) = .ok (i, []) := by
  have h1 : (∀ n, reqLen q = some n → q.length < n) ∧ ∀ op, q.head? = some op → Opcode.ofByte op ≠ none := by
    rcases decode_cases q with ⟨op, args, -, -, e⟩ | ⟨e1, e2, -⟩ | ⟨i, n, -, -, e⟩
    · rw [h] at e; cases e
    · exact ⟨e1, e2⟩
    · rw [h] at e; cases e
  rcases decode_cases (q ++ [b]) with ⟨op, args, e, e2, -⟩ | ⟨-, -, e⟩ | ⟨i, n, e1, e2, e3⟩
  · match q, hq with
    | x :: xs, _ =>
      simp only [List.cons_append, List.cons.injEq] at e
      exact absurd (e.1 ▸ e2) (h1.2 x rfl)
  · exact Or.inl e
  · right
    refine ⟨i, ?_⟩
    have hn : q.length + 1 ≤ n := by
      cases hr : reqLen q with
      | none => exact reqLen_first_known q b n hr e1 hq
      | some m =>
        have := reqLen_append q [b] m hr
        have : m = n := Option.some.inj (this.symm.trans e1)
        have := h1.1 m hr
        omega
    rw [e3, List.drop_of_length_le]
    simpa using hn

/-- A first byte is a beginning of a request, the whole of one, or an illegal opcode (R62, R64). -/
theorem decode_singleton (b : Byte) :
    decode [b] = .error (.illegalOpcode b) ∨ decode [b] = .error .incomplete ∨ ∃ i, decode [b] = .ok (i, []) := by
  cases h : Opcode.ofByte b with
  | none => simp [decode, h]
  | some o => cases o <;> simp [decode, h, decodeOperands, fieldsFB, fieldsFA, fieldsFXY, fieldsFC, fieldsFI]

end Sys2Proof
end

