-- ==== Sys2Proof/Laws/Memory.lean ====
section
/-! SUPPORT. The laws of `FRAME`: read after write, the canonical form, and what `MemRead` answers. -/

namespace Sys2Proof.Machine

theorem Memory.read_write_same (m : Memory) (a : Nat) (v : Byte) : (m.write a v).read a = some v := by
  induction m with
  | nil => simp [Memory.write, Memory.read]
  | cons c cs ih =>
    unfold Memory.write
    split
    · simp [Memory.read]
    · split
      · simp [Memory.read]
      · rename_i h
        simp only [Memory.read, ih]
        rw [if_neg (fun e => h e.symm)]

theorem Memory.read_write_other (m : Memory) (a b : Nat) (v : Byte) (h : b ≠ a) :
    (m.write a v).read b = m.read b := by
  induction m with
  | nil => simp [Memory.write, Memory.read, Ne.symm h]
  | cons c cs ih =>
    unfold Memory.write
    split
    · simp [Memory.read, Ne.symm h]
    · split
      · rename_i h2
        have : ¬ c.1 = b := fun e => h (by omega)
        simp [Memory.read, Ne.symm h, this]
      · simp only [Memory.read, ih]

theorem Memory.read_write (m : Memory) (a b : Nat) (v : Byte) :
    (m.write a v).read b = if b = a then some v else m.read b := by
  split
  · subst_vars; exact Memory.read_write_same ..
  · exact Memory.read_write_other _ _ _ _ ‹_›

@[simp] theorem Memory.wf_nil : Memory.wf [] := List.Pairwise.nil

/-- The addresses after a write are the ones before and the one written. -/
theorem Memory.mem_write_addr (m : Memory) (a b : Nat) (v : Byte) (h : b ∈ (m.write a v).map Prod.fst) :
    b = a ∨ b ∈ m.map Prod.fst := by
  induction m with
  | nil => simpa [Memory.write] using h
  | cons c cs ih =>
    unfold Memory.write at h
    split at h
    · simpa using h
    · split at h
      · simp only [List.map_cons, List.mem_cons] at h ⊢
        tauto
      · simp only [List.map_cons, List.mem_cons] at h ⊢
        rcases h with h | h
        · exact Or.inr (Or.inl h)
        · rcases ih h with h | h
          · exact Or.inl h
          · exact Or.inr (Or.inr h)

/-- A write keeps the canonical form. -/
theorem Memory.write_wf (m : Memory) (a : Nat) (v : Byte) (h : m.wf) : (m.write a v).wf := by
  unfold Memory.wf at h ⊢
  induction m with
  | nil => simp [Memory.write]
  | cons c cs ih =>
    simp only [List.map_cons, List.pairwise_cons] at h
    unfold Memory.write
    split
    · rename_i hlt
      simp only [List.map_cons, List.pairwise_cons, List.mem_cons]
      refine ⟨?_, h.1, h.2⟩
      rintro b (rfl | hb)
      · exact hlt
      · exact lt_trans hlt (h.1 b hb)
    · split
      · rename_i heq
        simp only [List.map_cons, List.pairwise_cons]
        exact ⟨fun b hb => heq ▸ h.1 b hb, h.2⟩
      · simp only [List.map_cons, List.pairwise_cons]
        refine ⟨fun b hb => ?_, ih h.2⟩
        rcases Memory.mem_write_addr cs a b v hb with rfl | hb
        · omega
        · exact h.1 b hb

theorem memRead_succ (sp : Space) (i n : Nat) (b : Byte) (h : sp.byteAt i = some b) :
    memRead sp i (n + 1) = (memRead sp (i + 1) n).map (b :: ·) := by
  rw [memRead, h]

/-- `MemRead` answers the bytes `f i ..` where each holds a value. -/
theorem memRead_eq (sp : Space) (f : Nat → Byte) (i n : Nat) (h : ∀ k, k < n → sp.byteAt (i + k) = some (f (i + k))) :
    memRead sp i n = some ((List.range' i n).map f) := by
  induction n generalizing i with
  | zero => rfl
  | succ n ih =>
    have h0 : sp.byteAt i = some (f i) := by simpa using h 0 (by omega)
    rw [memRead_succ sp i n _ h0, ih (i + 1) (fun k hk => by
      have := h (k + 1) (by omega)
      rwa [show i + (k + 1) = i + 1 + k by omega] at this)]
    simp [List.range'_succ]

/-- Reading the whole of a byte list gives it. -/
theorem memRead_payload (bs : List Byte) : memRead (.payload bs) 0 bs.length = some bs := by
  rw [memRead_eq (.payload bs) (fun i => bs.getD i 0) 0 bs.length]
  · congr 1
    apply List.ext_getElem
    · simp
    · intro i h1 h2
      simp [h2]
  · intro k hk
    simp [Space.byteAt, hk]

theorem memRead_fontRom (k : Nat) (h : k < 96) :
    memRead .fontRom (8 * k) 8 = some (List.ofFn (Config.font ⟨k, h⟩)) := by
  rw [memRead_eq .fontRom (fun i => if h : i < 768 then Config.font ⟨i / 8, by omega⟩ ⟨i % 8, by omega⟩ else 0)]
  · congr 1
    apply List.ext_getElem
    · simp
    · intro i h1 h2
      simp only [List.length_map, List.length_range'] at h1
      simp only [List.getElem_map, List.getElem_range', List.getElem_ofFn]
      rw [dif_pos (by omega)]
      congr 1 <;> simp only [Fin.mk.injEq] <;> omega
  · intro j hj
    have : 8 * k + j < 768 := by omega
    simp [Space.byteAt, this]

theorem memRead_initRom : memRead .initRom 0 20 = some (List.ofFn Config.initSeq) := by
  rw [memRead_eq .initRom (fun i => if h : i < 20 then Config.initSeq ⟨i, h⟩ else 0)]
  · congr 1
  · intro j hj
    simp [Space.byteAt, hj]

/-- A `MemRead` that has a value goes on with it. -/
theorem withRead_some (sp : Space) (i n : Nat) (bs : List Byte) (k : List Byte → Host.Outcome State Fault Refusal)
    (h : memRead sp i n = some bs) : withRead sp i n k = k bs := by
  rw [withRead, h]

end Sys2Proof.Machine
end

