-- ==== Sys2Proof/Laws/Framer.lean ====
section
/-! SUPPORT. The laws of the framing functions: what `Chunks` gives (R77, R78). -/

namespace Sys2Proof.Machine

theorem chunks_short (bs : List Byte) (h : bs.length < 32) : chunks bs = [0x40 :: bs] := by
  simp [chunks, Config.txnMax, h, chunkTxn, Config.prefixData]

/-- The data portions of `Chunks`, as cuts of the bytes. -/
theorem chunks_long (bs : List Byte) (h : 32 ≤ bs.length) :
    chunks bs = (List.range ((bs.length + 30) / 31)).map fun i => 0x40 :: (bs.drop (31 * i)).take 31 := by
  have hn : ¬ bs.length < Config.txnMax := by simp [Config.txnMax]; omega
  unfold chunks
  simp only [hn, if_false]
  split
  · rename_i hm
    simp only [Config.chunkMax] at hm ⊢
    rw [show (bs.length + 30) / 31 = bs.length / 31 by omega]
    simp [chunkTxn, Config.prefixData, slice]
  · rename_i hm
    simp only [Config.chunkMax] at hm ⊢
    rw [show (bs.length + 30) / 31 = bs.length / 31 + 1 by omega, List.range_succ, List.map_append]
    simp only [chunkTxn, Config.prefixData, slice, List.map_cons, List.map_nil]
    congr 2
    · funext i
      simp
    · congr 1
      rw [List.take_of_length_le (by simp), List.take_of_length_le (by simp; omega)]

/-- The cuts put together are the bytes. -/
theorem flatMap_cuts (bs : List Byte) (n : Nat) (h : bs.length ≤ 31 * n) :
    ((List.range n).flatMap fun i => (bs.drop (31 * i)).take 31) = bs := by
  induction n generalizing bs with
  | zero =>
    have : bs = [] := List.length_eq_zero_iff.mp (by omega)
    simp [this]
  | succ n ih =>
    rw [List.range_succ_eq_map, List.flatMap_cons, List.flatMap_map]
    have hcut := ih (bs.drop 31) (by simp; omega)
    simp only [List.drop_drop] at hcut
    simp only [Nat.mul_zero, List.drop_zero]
    conv_rhs => rw [← List.take_append_drop 31 bs, ← hcut]
    congr 2
    funext i
    rw [show 31 * i.succ = 31 + 31 * i by omega]

/-- `Chunks` loses, repeats and reorders no byte (R78 (a)). -/
theorem chunks_data (bs : List Byte) : (chunks bs).flatMap List.tail = bs := by
  by_cases h : bs.length < 32
  · simp [chunks_short bs h]
  · rw [chunks_long bs (by omega), List.flatMap_map]
    exact flatMap_cuts bs _ (by omega)

/-- The number of transactions (R77). -/
theorem chunks_length (bs : List Byte) :
    (chunks bs).length = if bs.length < 32 then 1 else (bs.length + 30) / 31 := by
  split
  · rename_i h; simp [chunks_short bs h]
  · rename_i h; simp [chunks_long bs (by omega)]

/-- The data length of each transaction (R78 (c)). -/
theorem chunks_getElem_length (bs : List Byte) (h : 32 ≤ bs.length) (i : Nat) (hi : i < (chunks bs).length) :
    (chunks bs)[i].length = 1 + min 31 (bs.length - 31 * i) := by
  simp only [chunks_long bs h]
  simp
  omega

/-- Every transaction is the data prefix and at most 31 bytes (R78 (b), (e)). -/
theorem mem_chunks (bs p : List Byte) (h : p ∈ chunks bs) : ∃ q, p = 0x40 :: q ∧ q.length ≤ 31 := by
  by_cases hl : bs.length < 32
  · rw [chunks_short bs hl, List.mem_singleton] at h
    exact ⟨bs, h, by omega⟩
  · rw [chunks_long bs (by omega), List.mem_map] at h
    obtain ⟨i, -, rfl⟩ := h
    exact ⟨_, rfl, by simp⟩

theorem chunks_ne_nil (bs : List Byte) : chunks bs ≠ [] := by
  intro h
  have := chunks_length bs
  rw [h] at this
  simp at this
  split at this <;> omega

end Sys2Proof.Machine
end

