-- ==== Sys2Proof/Laws/Packer.lean ====
section
/-! SUPPORT. What `Pack` does on a valid image: no read without a value, which bytes it writes, and their bits (R92 to R95). -/

namespace Sys2Proof.Machine

/-- A fold whose steps all have a value is the plain fold. -/
theorem foldlM_some {α β : Type} (f : β → α → Option β) (g : β → α → β) (l : List α) (x : β)
    (h : ∀ a ∈ l, ∀ y, f y a = some (g y a)) : l.foldlM f x = some (l.foldl g x) := by
  induction l generalizing x with
  | nil => rfl
  | cons a l ih =>
    rw [List.foldlM_cons, h a (by simp) x]
    exact ih _ fun b hb => h b (by simp [hb])

/-- The sample of row `r`, column `c` (R36). -/
def sampleAt (w : Nat) (samples : List Byte) (r c : Nat) : Byte := samples.getD (r * w + c) 0

/-- The byte of page `p`, column `c`, where its samples exist. -/
def packedByte (sens : Byte) (w : Nat) (samples : List Byte) (p c : Nat) : Byte :=
  (List.range 8).foldl (fun byte b => byte ||| pixelBit sens (sampleAt w samples (8 * p + b) c) b) 0#8

/-- The indices that `Pack` forms are inside `SAMPLE` (R37). -/
theorem sample_index_lt {w h p b c : Nat} (hp : p < h / 8) (hb : b < 8) (hc : c < w) :
    (8 * p + b) * w + c < w * h := by
  have h1 : 8 * p + b + 1 ≤ h := by omega
  calc (8 * p + b) * w + c < (8 * p + b) * w + w := by omega
    _ = (8 * p + b + 1) * w := by ring
    _ ≤ h * w := Nat.mul_le_mul_right w h1
    _ = w * h := Nat.mul_comm h w

theorem packByte_eq (sens : Byte) (w h : Nat) (samples : List Byte) (hn : samples.length = w * h) (p c : Nat)
    (hp : p < h / 8) (hc : c < w) : packByte sens w samples p c = some (packedByte sens w samples p c) := by
  unfold packByte packedByte
  apply foldlM_some
  intro b hb y
  have hb' : b < 8 := by simpa [Config.pageRows] using hb
  have hlt : (8 * p + b) * w + c < samples.length := hn ▸ sample_index_lt hp hb' hc
  simp [Space.byteAt, sampleAt, hlt]

/-- A pixel's contribution has its bit at the row's place and no other. -/
theorem pixelBit_bit (sens sample : Byte) (k b : Nat) (hb : b < 8) :
    (pixelBit sens sample k).getLsbD b = (decide (b = k) && decide (sens < sample)) := by
  unfold pixelBit
  rw [BitVec.getLsbD_shiftLeft]
  by_cases hs : sens < sample
  · rw [if_pos hs, BitVec.getLsbD_one, Bool.eq_iff_iff]
    simp [hs]
    omega
  · simp [hs]

/-- Bit `b` of a packed byte is the strict threshold of row `8*p + b` (R93, R94). -/
theorem packedByte_bit (sens : Byte) (w : Nat) (samples : List Byte) (p c b : Nat) (hb : b < 8) :
    (packedByte sens w samples p c).getLsbD b = decide (sens < sampleAt w samples (8 * p + b) c) := by
  simp only [packedByte, show List.range 8 = [0, 1, 2, 3, 4, 5, 6, 7] from rfl, List.foldl_cons, List.foldl_nil,
    BitVec.getLsbD_or, pixelBit_bit _ _ _ _ hb]
  have : b = 0 ∨ b = 1 ∨ b = 2 ∨ b = 3 ∨ b = 4 ∨ b = 5 ∨ b = 6 ∨ b = 7 := by omega
  rcases this with rfl | rfl | rfl | rfl | rfl | rfl | rfl | rfl <;> simp

/-- What the column loop leaves in the frame. -/
theorem packPage_spec (sens : Byte) (w h : Nat) (samples : List Byte) (hn : samples.length = w * h) (p : Nat)
    (hp : p < h / 8) (m : Memory) :
    ∃ m', packPage sens w samples p m = some m' ∧ (m.wf → m'.wf) ∧
      (∀ c < w, m'.read (p * w + c) = some (packedByte sens w samples p c)) ∧
      (∀ a, (a < p * w ∨ p * w + w ≤ a) → m'.read a = m.read a) := by
  have key : ∀ n ≤ w, ∀ m : Memory, ∃ m' : Memory,
      (List.range n).foldlM (fun m c => (packByte sens w samples p c).map fun byte => m.write (p * w + c) byte) m = some m' ∧
      (m.wf → m'.wf) ∧ (∀ c < n, m'.read (p * w + c) = some (packedByte sens w samples p c)) ∧
      (∀ a, (a < p * w ∨ p * w + n ≤ a) → m'.read a = m.read a) := by
    intro n
    induction n with
    | zero => intro _ m; exact ⟨m, rfl, id, by omega, fun _ _ => rfl⟩
    | succ n ih =>
      intro hn' m
      obtain ⟨m', h1, h2, h3, h4⟩ := ih (by omega) m
      refine ⟨m'.write (p * w + n) (packedByte sens w samples p n), ?_, fun hw => Memory.write_wf _ _ _ (h2 hw), ?_, ?_⟩
      · rw [List.range_succ, List.foldlM_append, h1]
        simp [packByte_eq sens w h samples hn p n hp (by omega)]
      · intro c hc
        rw [Memory.read_write]
        split
        · have : c = n := by omega
          rw [this]
        · exact h3 c (by omega)
      · intro a ha
        rw [Memory.read_write, if_neg (by omega)]
        exact h4 a (by omega)
  exact key w le_rfl m

/-- What the page loop leaves in the frame (R92). -/
theorem packPages_spec (sens : Byte) (w h : Nat) (samples : List Byte) (hn : samples.length = w * h) (m : Memory) :
    ∃ m', packPages sens w (h / 8) samples m = some m' ∧ (m.wf → m'.wf) ∧
      (∀ p < h / 8, ∀ c < w, m'.read (p * w + c) = some (packedByte sens w samples p c)) ∧
      (∀ a, h / 8 * w ≤ a → m'.read a = m.read a) := by
  have key : ∀ n ≤ h / 8, ∃ m' : Memory, packPages sens w n samples m = some m' ∧ (m.wf → m'.wf) ∧
      (∀ p < n, ∀ c < w, m'.read (p * w + c) = some (packedByte sens w samples p c)) ∧
      (∀ a, n * w ≤ a → m'.read a = m.read a) := by
    intro n
    induction n with
    | zero => intro _; exact ⟨m, rfl, id, by omega, fun _ _ => rfl⟩
    | succ n ih =>
      intro hn'
      obtain ⟨m1, h1, h2, h3, h4⟩ := ih (by omega)
      obtain ⟨m2, g1, g2, g3, g4⟩ := packPage_spec sens w h samples hn n (by omega) m1
      refine ⟨m2, ?_, g2 ∘ h2, ?_, ?_⟩
      · unfold packPages at h1 ⊢
        rw [List.range_succ, List.foldlM_append, h1]
        simpa using g1
      · intro p hp c hc
        by_cases e : p = n
        · exact e ▸ g3 c hc
        · rw [g4 _ (Or.inl ?_)]
          · exact h3 p (by omega) c hc
          · calc p * w + c < p * w + w := by omega
              _ = (p + 1) * w := by ring
              _ ≤ n * w := Nat.mul_le_mul_right w (by omega)
      · intro a ha
        have : (n + 1) * w = n * w + w := by ring
        rw [g4 a (Or.inr (by omega)), h4 a (by omega)]
  exact key _ le_rfl

/-- The packed frame in index order (R93). -/
def packedFrame (sens : Byte) (w h : Nat) (samples : List Byte) : List Byte :=
  (List.range (h / 8 * w)).map fun a => packedByte sens w samples (a / w) (a % w)

@[simp] theorem packedFrame_length (sens : Byte) (w h : Nat) (samples : List Byte) :
    (packedFrame sens w h samples).length = h / 8 * w := by simp [packedFrame]

/-- `Pack` on a valid image goes on with the packed frame, whatever the frame held before (R92, R95). -/
theorem withPacked_valid (sens : Byte) (w h : Nat) (samples : List Byte) (m : Memory) (hn : samples.length = w * h) :
    ∃ m' : Memory, (∀ k, withPacked sens w h samples m k = k m' (packedFrame sens w h samples)) ∧ (m.wf → m'.wf) ∧
      (∀ a < h / 8 * w, m'.read a = (packedFrame sens w h samples)[a]?) ∧
      (∀ a, h / 8 * w ≤ a → m'.read a = m.read a) := by
  obtain ⟨m', h1, h2, h3, h4⟩ := packPages_spec sens w h samples hn m
  have hread : ∀ a < h / 8 * w, m'.read a = some (packedByte sens w samples (a / w) (a % w)) := by
    intro a ha
    have hw : 0 < w := by
      rcases Nat.eq_zero_or_pos w with rfl | hw
      · omega
      · exact hw
    have hp : a / w < h / 8 := Nat.div_lt_of_lt_mul (by rw [Nat.mul_comm]; exact ha)
    have := h3 (a / w) hp (a % w) (Nat.mod_lt _ hw)
    rwa [Nat.mul_comm, Nat.div_add_mod] at this
  have hrd : memRead (.frame m') 0 (h / 8 * w) = some (packedFrame sens w h samples) := by
    rw [memRead_eq (.frame m') (fun a => packedByte sens w samples (a / w) (a % w))]
    · rw [← List.range_eq_range']; rfl
    · intro a ha
      simpa [Space.byteAt] using hread a ha
  refine ⟨m', fun k => ?_, h2, fun a ha => ?_, h4⟩
  · simp only [withPacked, Config.pageRows, h1]
    exact withRead_some _ _ _ _ _ hrd
  · rw [hread a ha]
    simp [packedFrame, ha]

end Sys2Proof.Machine
end

