-- ==== Sys2Proof/Laws/State.lean ====
section
/-! SUPPORT. One lemma per field per update of the state: what each named operation writes and that it writes nothing else. -/

namespace Sys2Proof.Machine

/-! ### `plan` -/

section
variable (s : State) (q : List (List Byte)) (c : Option Mode) (r : Response)

@[simp] theorem State.plan_mode : (s.plan q c r).mode = s.mode := rfl
@[simp] theorem State.plan_devAddr : (s.plan q c r).devAddr = s.devAddr := rfl
@[simp] theorem State.plan_fault : (s.plan q c r).fault = s.fault := rfl
@[simp] theorem State.plan_rp : (s.plan q c r).rp = s.rp := rfl
@[simp] theorem State.plan_phase : (s.plan q c r).phase = s.phase := rfl
@[simp] theorem State.plan_cur : (s.plan q c r).cur = s.cur := rfl
@[simp] theorem State.plan_txq : (s.plan q c r).txq = q := rfl
@[simp] theorem State.plan_inflight : (s.plan q c r).inflight = s.inflight := rfl
@[simp] theorem State.plan_commit : (s.plan q c r).commit = c := rfl
@[simp] theorem State.plan_resp : (s.plan q c r).resp = some r := rfl
@[simp] theorem State.plan_frame : (s.plan q c r).frame = s.frame := rfl
@[simp] theorem State.plan_req : (s.plan q c r).req = s.req := rfl
@[simp] theorem State.plan_transport : (s.plan q c r).transport = s.transport := rfl
@[simp] theorem State.plan_resetLine : (s.plan q c r).resetLine = s.resetLine := rfl
@[simp] theorem State.plan_trace : (s.plan q c r).trace = s.trace := rfl

end

/-! ### `respond` -/

section
variable (s : State) (r : Response)

@[simp] theorem State.respond_mode : (s.respond r).mode = s.mode := rfl
@[simp] theorem State.respond_devAddr : (s.respond r).devAddr = s.devAddr := rfl
@[simp] theorem State.respond_fault : (s.respond r).fault = s.fault := rfl
@[simp] theorem State.respond_rp : (s.respond r).rp = s.rp := rfl
@[simp] theorem State.respond_phase : (s.respond r).phase = s.phase := rfl
@[simp] theorem State.respond_cur : (s.respond r).cur = s.cur := rfl
@[simp] theorem State.respond_txq : (s.respond r).txq = s.txq := rfl
@[simp] theorem State.respond_inflight : (s.respond r).inflight = s.inflight := rfl
@[simp] theorem State.respond_commit : (s.respond r).commit = s.commit := rfl
@[simp] theorem State.respond_resp : (s.respond r).resp = s.resp := rfl
@[simp] theorem State.respond_frame : (s.respond r).frame = s.frame := rfl
@[simp] theorem State.respond_req : (s.respond r).req = s.req := rfl
@[simp] theorem State.respond_transport : (s.respond r).transport = s.transport := rfl
@[simp] theorem State.respond_resetLine : (s.respond r).resetLine = s.resetLine := rfl
@[simp] theorem State.respond_trace : (s.respond r).trace = s.trace ++ [.respond r] := rfl

end

/-! ### `enterFault` -/

section
variable (s : State)

@[simp] theorem State.enterFault_mode : s.enterFault.mode = s.mode := rfl
@[simp] theorem State.enterFault_devAddr : s.enterFault.devAddr = s.devAddr := rfl
@[simp] theorem State.enterFault_fault : s.enterFault.fault = true := rfl
@[simp] theorem State.enterFault_rp : s.enterFault.rp = s.rp := rfl
@[simp] theorem State.enterFault_phase : s.enterFault.phase = .faulted := rfl
@[simp] theorem State.enterFault_cur : s.enterFault.cur = s.cur := rfl
@[simp] theorem State.enterFault_txq : s.enterFault.txq = s.txq := rfl
@[simp] theorem State.enterFault_inflight : s.enterFault.inflight = s.inflight := rfl
@[simp] theorem State.enterFault_commit : s.enterFault.commit = s.commit := rfl
@[simp] theorem State.enterFault_resp : s.enterFault.resp = s.resp := rfl
@[simp] theorem State.enterFault_frame : s.enterFault.frame = s.frame := rfl
@[simp] theorem State.enterFault_req : s.enterFault.req = s.req := rfl
@[simp] theorem State.enterFault_transport : s.enterFault.transport = s.transport := rfl
@[simp] theorem State.enterFault_resetLine : s.enterFault.resetLine = s.resetLine := rfl
@[simp] theorem State.enterFault_trace : s.enterFault.trace = s.trace ++ [.respond ⟨0xFF, []⟩] := rfl

end

/-! ### `applyReset` -/

section
variable (s : State)

@[simp] theorem State.applyReset_mode : s.applyReset.mode = .unset := rfl
@[simp] theorem State.applyReset_devAddr : s.applyReset.devAddr = Config.devAddr := rfl
@[simp] theorem State.applyReset_fault : s.applyReset.fault = false := rfl
@[simp] theorem State.applyReset_rp : s.applyReset.rp = 0 := rfl
@[simp] theorem State.applyReset_phase : s.applyReset.phase = .idle := rfl
@[simp] theorem State.applyReset_cur : s.applyReset.cur = [] := rfl
@[simp] theorem State.applyReset_txq : s.applyReset.txq = [] := rfl
@[simp] theorem State.applyReset_inflight : s.applyReset.inflight = false := rfl
@[simp] theorem State.applyReset_commit : s.applyReset.commit = none := rfl
@[simp] theorem State.applyReset_resp : s.applyReset.resp = none := rfl
@[simp] theorem State.applyReset_frame : s.applyReset.frame = [] := rfl
@[simp] theorem State.applyReset_req : s.applyReset.req = s.req := rfl
@[simp] theorem State.applyReset_transport : s.applyReset.transport = s.transport := rfl
@[simp] theorem State.applyReset_resetLine : s.applyReset.resetLine = s.resetLine := rfl
@[simp] theorem State.applyReset_trace : s.applyReset.trace = s.trace ++ s.abandoned := rfl

end

/-! ### `hostWrite` -/

section
variable (s : State) (q : List Byte)

@[simp] theorem State.hostWrite_mode : (s.hostWrite q).mode = s.mode := rfl
@[simp] theorem State.hostWrite_devAddr : (s.hostWrite q).devAddr = s.devAddr := rfl
@[simp] theorem State.hostWrite_fault : (s.hostWrite q).fault = s.fault := rfl
@[simp] theorem State.hostWrite_rp : (s.hostWrite q).rp = s.rp := rfl
@[simp] theorem State.hostWrite_phase : (s.hostWrite q).phase = s.phase := rfl
@[simp] theorem State.hostWrite_cur : (s.hostWrite q).cur = s.cur := rfl
@[simp] theorem State.hostWrite_txq : (s.hostWrite q).txq = s.txq := rfl
@[simp] theorem State.hostWrite_inflight : (s.hostWrite q).inflight = s.inflight := rfl
@[simp] theorem State.hostWrite_commit : (s.hostWrite q).commit = s.commit := rfl
@[simp] theorem State.hostWrite_resp : (s.hostWrite q).resp = s.resp := rfl
@[simp] theorem State.hostWrite_frame : (s.hostWrite q).frame = s.frame := rfl
@[simp] theorem State.hostWrite_req : (s.hostWrite q).req = s.req ++ q := rfl
@[simp] theorem State.hostWrite_transport : (s.hostWrite q).transport = s.transport := rfl
@[simp] theorem State.hostWrite_resetLine : (s.hostWrite q).resetLine = s.resetLine := rfl
@[simp] theorem State.hostWrite_trace : (s.hostWrite q).trace = s.trace := rfl

end

/-! ### `transportWill` -/

section
variable (s : State) (a : List (Option Answer))

@[simp] theorem State.transportWill_mode : (s.transportWill a).mode = s.mode := rfl
@[simp] theorem State.transportWill_devAddr : (s.transportWill a).devAddr = s.devAddr := rfl
@[simp] theorem State.transportWill_fault : (s.transportWill a).fault = s.fault := rfl
@[simp] theorem State.transportWill_rp : (s.transportWill a).rp = s.rp := rfl
@[simp] theorem State.transportWill_phase : (s.transportWill a).phase = s.phase := rfl
@[simp] theorem State.transportWill_cur : (s.transportWill a).cur = s.cur := rfl
@[simp] theorem State.transportWill_txq : (s.transportWill a).txq = s.txq := rfl
@[simp] theorem State.transportWill_inflight : (s.transportWill a).inflight = s.inflight := rfl
@[simp] theorem State.transportWill_commit : (s.transportWill a).commit = s.commit := rfl
@[simp] theorem State.transportWill_resp : (s.transportWill a).resp = s.resp := rfl
@[simp] theorem State.transportWill_frame : (s.transportWill a).frame = s.frame := rfl
@[simp] theorem State.transportWill_req : (s.transportWill a).req = s.req := rfl
@[simp] theorem State.transportWill_transport : (s.transportWill a).transport = s.transport ++ a := rfl
@[simp] theorem State.transportWill_resetLine : (s.transportWill a).resetLine = s.resetLine := rfl
@[simp] theorem State.transportWill_trace : (s.transportWill a).trace = s.trace := rfl

end

/-! ### `withRequest` -/

section
variable (s : State) (q : List Byte)

@[simp] theorem State.withRequest_mode : (s.withRequest q).mode = s.mode := rfl
@[simp] theorem State.withRequest_devAddr : (s.withRequest q).devAddr = s.devAddr := rfl
@[simp] theorem State.withRequest_fault : (s.withRequest q).fault = false := rfl
@[simp] theorem State.withRequest_rp : (s.withRequest q).rp = s.rp + (q.length - 1) := rfl
@[simp] theorem State.withRequest_phase : (s.withRequest q).phase = if q.length ≤ 1 then .idle else .recv := rfl
@[simp] theorem State.withRequest_cur : (s.withRequest q).cur = q.dropLast := rfl
@[simp] theorem State.withRequest_txq : (s.withRequest q).txq = s.txq := rfl
@[simp] theorem State.withRequest_inflight : (s.withRequest q).inflight = s.inflight := rfl
@[simp] theorem State.withRequest_commit : (s.withRequest q).commit = s.commit := rfl
@[simp] theorem State.withRequest_resp : (s.withRequest q).resp = s.resp := rfl
@[simp] theorem State.withRequest_frame : (s.withRequest q).frame = s.frame := rfl
@[simp] theorem State.withRequest_req : (s.withRequest q).req = q.drop (q.length - 1) ++ s.req := rfl
@[simp] theorem State.withRequest_transport : (s.withRequest q).transport = s.transport := rfl
@[simp] theorem State.withRequest_resetLine : (s.withRequest q).resetLine = [] := rfl
@[simp] theorem State.withRequest_trace : (s.withRequest q).trace = s.trace := rfl

end

/-! ### `planOk` and `raise` are `plan` -/

@[simp] theorem State.planOk_eq (s : State) (q : List (List Byte)) (c : Option Mode) :
    s.planOk q c = s.plan q c ⟨0x00, []⟩ := rfl

@[simp] theorem State.raise_eq (s : State) (c : Condition) : s.raise c = s.plan [] none ⟨c.status, []⟩ := rfl

/-! ### What `issue` leaves alone -/

section
variable (s : State)

@[simp] theorem State.issue_mode : s.issue.mode = s.mode := by
  unfold State.issue; split <;> rfl

@[simp] theorem State.issue_devAddr : s.issue.devAddr = s.devAddr := by
  unfold State.issue; split <;> rfl

@[simp] theorem State.issue_fault : s.issue.fault = s.fault := by
  unfold State.issue; split <;> rfl

@[simp] theorem State.issue_rp : s.issue.rp = s.rp := by
  unfold State.issue; split <;> rfl

@[simp] theorem State.issue_phase : s.issue.phase = s.phase := by
  unfold State.issue; split <;> rfl

@[simp] theorem State.issue_cur : s.issue.cur = s.cur := by
  unfold State.issue; split <;> rfl

@[simp] theorem State.issue_txq : s.issue.txq = s.txq := by
  unfold State.issue; split <;> rfl

@[simp] theorem State.issue_commit : s.issue.commit = s.commit := by
  unfold State.issue; split <;> rfl

@[simp] theorem State.issue_resp : s.issue.resp = s.resp := by
  unfold State.issue; split <;> rfl

@[simp] theorem State.issue_frame : s.issue.frame = s.frame := by
  unfold State.issue; split <;> rfl

@[simp] theorem State.issue_req : s.issue.req = s.req := by
  unfold State.issue; split <;> rfl

@[simp] theorem State.issue_transport : s.issue.transport = s.transport := by
  unfold State.issue; split <;> rfl

@[simp] theorem State.issue_resetLine : s.issue.resetLine = s.resetLine := by
  unfold State.issue; split <;> rfl

end

/-! ### What `poll` leaves alone -/

section
variable (s : State)

@[simp] theorem State.poll_mode : s.poll.mode = s.mode := by
  unfold State.poll; split <;> rfl

@[simp] theorem State.poll_devAddr : s.poll.devAddr = s.devAddr := by
  unfold State.poll; split <;> rfl

@[simp] theorem State.poll_fault : s.poll.fault = s.fault := by
  unfold State.poll; split <;> rfl

@[simp] theorem State.poll_rp : s.poll.rp = s.rp := by
  unfold State.poll; split <;> rfl

@[simp] theorem State.poll_phase : s.poll.phase = s.phase := by
  unfold State.poll; split <;> rfl

@[simp] theorem State.poll_cur : s.poll.cur = s.cur := by
  unfold State.poll; split <;> rfl

@[simp] theorem State.poll_commit : s.poll.commit = s.commit := by
  unfold State.poll; split <;> rfl

@[simp] theorem State.poll_resp : s.poll.resp = s.resp := by
  unfold State.poll; split <;> rfl

@[simp] theorem State.poll_frame : s.poll.frame = s.frame := by
  unfold State.poll; split <;> rfl

@[simp] theorem State.poll_req : s.poll.req = s.req := by
  unfold State.poll; split <;> rfl

@[simp] theorem State.poll_resetLine : s.poll.resetLine = s.resetLine := by
  unfold State.poll; split <;> rfl

end

/-! ### What `finish` leaves alone -/

section
variable (s : State)

@[simp] theorem State.finish_devAddr : s.finish.devAddr = s.devAddr := by
  unfold State.finish; split <;> rfl

@[simp] theorem State.finish_fault : s.finish.fault = s.fault := by
  unfold State.finish; split <;> rfl

@[simp] theorem State.finish_rp : s.finish.rp = s.rp := by
  unfold State.finish; split <;> rfl

@[simp] theorem State.finish_txq : s.finish.txq = s.txq := by
  unfold State.finish; split <;> rfl

@[simp] theorem State.finish_inflight : s.finish.inflight = s.inflight := by
  unfold State.finish; split <;> rfl

@[simp] theorem State.finish_req : s.finish.req = s.req := by
  unfold State.finish; split <;> rfl

@[simp] theorem State.finish_transport : s.finish.transport = s.transport := by
  unfold State.finish; split <;> rfl

@[simp] theorem State.finish_resetLine : s.finish.resetLine = s.resetLine := by
  unfold State.finish; split <;> rfl

end

/-! ### What `execPhase` leaves alone -/

section
variable (s : State)

@[simp] theorem State.execPhase_devAddr : s.execPhase.devAddr = s.devAddr := by simp [State.execPhase]

@[simp] theorem State.execPhase_fault : s.execPhase.fault = s.fault := by simp [State.execPhase]

@[simp] theorem State.execPhase_rp : s.execPhase.rp = s.rp := by simp [State.execPhase]

@[simp] theorem State.execPhase_req : s.execPhase.req = s.req := by simp [State.execPhase]

@[simp] theorem State.execPhase_resetLine : s.execPhase.resetLine = s.resetLine := by simp [State.execPhase]

end

end Sys2Proof.Machine
end

