-- ==== Sys2Proof/Laws/Exec.lean ====
section
/-! SUPPORT. What the rule of each request yields, one equation per meaning that reads a space or splits cases; the other
meanings are equations already. -/

namespace Sys2Proof.Machine

theorem execSendArray_eq (payload : List Byte) (s : State) :
    execSendArray payload s = .next (s.plan (chunks payload) none ⟨0x00, []⟩) := by
  rw [execSendArray, withRead_some _ _ _ _ _ (memRead_payload payload), State.planOk_eq]

theorem glyphIndex_lt (cp : BitVec 24) : glyphIndex cp < 96 := by
  unfold glyphIndex
  split <;> omega

theorem execPutChar_eq (cp : BitVec 24) (s : State) :
    execPutChar cp s =
      .next (s.plan [0x40 :: List.ofFn (Config.font ⟨glyphIndex cp, glyphIndex_lt cp⟩)] none ⟨0x00, []⟩) := by
  rw [execPutChar, withRead_some _ _ _ _ _ (memRead_fontRom _ (glyphIndex_lt cp)), State.planOk_eq, chunks_short _ (by simp)]

theorem execSetTextXy_legal (col row : Byte) (s : State) (h : row.toNat < 80) :
    execSetTextXy col row s =
      .next (s.plan [[0x00, pageCmd row], [0x00, colLo col], [0x00, colHi col]] none ⟨0x00, []⟩) := by
  simp [execSetTextXy, rowLegal, h, cmdTxn, Config.prefixCmd]

theorem execSetTextXy_illegal (col row : Byte) (s : State) (h : 80 ≤ row.toNat) :
    execSetTextXy col row s = .next (s.plan [] none ⟨0x02, []⟩) := by
  simp [execSetTextXy, rowLegal, Nat.not_lt.mpr h, Condition.status]

/-- The transactions of `INIT_SEQ` (R101). -/
def initTxns : List (List Byte) := List.ofFn fun k => [0x00, Config.initSeq k]

theorem execSetup_mode (b : Byte) (m : Mode) (s : State) (h : setupMode b = some m) :
    execSetup b s = .next (s.plan (initTxns ++ modeSwitchTxns m) (some m) ⟨0x00, []⟩) := by
  simp only [execSetup, h]
  rw [withRead_some _ _ _ _ _ memRead_initRom, State.planOk_eq]
  rfl

theorem execSetup_reserved (b : Byte) (s : State) (h : setupMode b = none) :
    execSetup b s = .next (s.plan [] none ⟨0x02, []⟩) := by
  simp [execSetup, h, Condition.status]

theorem imageValid_iff (w h n : Nat) : imageValid w h n = true ↔ 1 ≤ w ∧ 1 ≤ h ∧ h % 8 = 0 ∧ n = w * h := by
  simp [imageValid, Config.pageRows, and_assoc]

/-- PACK and PUT_IMAGE on a valid image: one frame, the same for both. -/
theorem execPack_valid (sens : Byte) (w h : BitVec 16) (samples : List Byte) (s : State)
    (hv : imageValid w.toNat h.toNat samples.length = true) :
    ∃ m : Memory,
      execPack sens w h samples s =
        .next ({ s with frame := m }.plan [] none ⟨0x00, packedFrame sens w.toNat h.toNat samples⟩) ∧
      execPutImage sens w h samples s =
        .next ({ s with frame := m }.plan (chunks (packedFrame sens w.toNat h.toNat samples)) none ⟨0x00, []⟩) ∧
      (s.frame.wf → m.wf) ∧
      (∀ a < h.toNat / 8 * w.toNat, m.read a = (packedFrame sens w.toNat h.toNat samples)[a]?) ∧
      (∀ a, h.toNat / 8 * w.toNat ≤ a → m.read a = s.frame.read a) := by
  obtain ⟨m, hm, hwf, h1, h2⟩ :=
    withPacked_valid sens w.toNat h.toNat samples s.frame ((imageValid_iff _ _ _).mp hv).2.2.2
  refine ⟨m, ?_, ?_, hwf, h1, h2⟩
  · rw [execPack, if_pos hv, hm]; rfl
  · rw [execPutImage, if_pos hv, hm]; rfl

theorem execPack_invalid (sens : Byte) (w h : BitVec 16) (samples : List Byte) (s : State)
    (hv : imageValid w.toNat h.toNat samples.length = false) :
    execPack sens w h samples s = .next (s.plan [] none ⟨0x01, []⟩) ∧
    execPutImage sens w h samples s = .next (s.plan [] none ⟨0x01, []⟩) := by
  simp [execPack, execPutImage, hv, Condition.status]

end Sys2Proof.Machine
end

