-- ==== Sys2Proof/Laws/PerInstr.lean ====
section
/-! SUPPORT. Laws of every request as syntax, one lemma per constructor of `Instr`. -/

namespace Sys2Proof.Laws.Framing

/-- The request's encoding begins with the opcode byte of a row of the opcode map, and it is that byte alone exactly where the
row's format is F0 (R60, R63). -/
def Statement (i : Instr) : Prop :=
  ∃ (o : Opcode) (operands : List Byte),
    encode i = o.byte :: operands ∧ Opcode.ofByte o.byte = some o ∧ (operands = [] ↔ o.format = .f0)

theorem sendCmd (b : Byte) : Statement (.sendCmd b) := ⟨.sendCmd, _, rfl, rfl, by simp [Opcode.format]⟩

theorem sendData (b : Byte) : Statement (.sendData b) := ⟨.sendData, _, rfl, rfl, by simp [Opcode.format]⟩

theorem sendArray (payload : List Byte) : Statement (.sendArray payload) :=
  ⟨.sendArray, _, rfl, rfl, by simp [Opcode.format, encodeFA]⟩

theorem setHmode : Statement .setHmode := ⟨.setHmode, _, rfl, rfl, by simp [Opcode.format]⟩

theorem setPmode : Statement .setPmode := ⟨.setPmode, _, rfl, rfl, by simp [Opcode.format]⟩

theorem setTextXy (col row : Byte) : Statement (.setTextXy col row) :=
  ⟨.setTextXy, _, rfl, rfl, by simp [Opcode.format]⟩

theorem putChar (cp : BitVec 24) : Statement (.putChar cp) := ⟨.putChar, _, rfl, rfl, by simp [Opcode.format]⟩

theorem putImage (sens : Byte) (w h : BitVec 16) (samples : List Byte) : Statement (.putImage sens w h samples) :=
  ⟨.putImage, _, rfl, rfl, by simp [Opcode.format, encodeFI]⟩

theorem pack (sens : Byte) (w h : BitVec 16) (samples : List Byte) : Statement (.pack sens w h samples) :=
  ⟨.pack, _, rfl, rfl, by simp [Opcode.format, encodeFI]⟩

theorem setup (b : Byte) : Statement (.setup b) := ⟨.setup, _, rfl, rfl, by simp [Opcode.format]⟩

theorem setBrightness (v : Byte) : Statement (.setBrightness v) :=
  ⟨.setBrightness, _, rfl, rfl, by simp [Opcode.format]⟩

theorem readMode : Statement .readMode := ⟨.readMode, _, rfl, rfl, by simp [Opcode.format]⟩

end Sys2Proof.Laws.Framing
end

