-- ==== Sys2Proof/Laws/Step.lean ====
section
/-! SUPPORT. What one step can do: the inversion of `step`, and the `EXEC` clauses case by case (R32). -/

namespace Sys2Proof.Machine

/-! ### Runs -/

@[simp] theorem run_zero (s : State) : run 0 s = .next s := rfl

theorem run_succ (n : Nat) (s t : State) (h : step s = .next t) : run (n + 1) s = run n t := by rw [run, h]

theorem run_succ_fault (n : Nat) (s : State) (f : Fault) (h : step s = .fault f) : run (n + 1) s = .fault f := by
  rw [run, h]

theorem run_succ_refused (n : Nat) (s : State) (f : Refusal) (h : step s = .refused f) : run (n + 1) s = .refused f := by
  rw [run, h]

/-- `run` is the host's run of `core`. -/
theorem run_eq_core (n : Nat) (s : State) : run n s = Sys2Proof.core.run n s := by
  induction n generalizing s with
  | zero => rfl
  | succ n ih =>
    cases hs : step s with
    | next t =>
      have h' : Sys2Proof.core.step s = .next t := hs
      rw [run_succ _ _ _ hs, ih]
      simp only [Host.Core.run, h']
      rfl
    | fault f =>
      have h' : Sys2Proof.core.step s = .fault f := hs
      rw [run_succ_fault _ _ _ hs]
      simp only [Host.Core.run, h']
      rfl
    | refused f =>
      have h' : Sys2Proof.core.step s = .refused f := hs
      rw [run_succ_refused _ _ _ hs]
      simp only [Host.Core.run, h']
      rfl

theorem run_add (m n : Nat) (s t : State) (h : run m s = .next t) : run (m + n) s = run n t := by
  induction m generalizing s with
  | zero => cases h; rw [Nat.zero_add]
  | succ m ih =>
    rw [Nat.succ_add]
    cases hs : step s with
    | next u => rw [run_succ _ _ _ hs] at h ⊢; exact ih u h
    | fault r => rw [run_succ_fault _ _ _ hs] at h; cases h
    | refused r => rw [run_succ_refused _ _ _ hs] at h; cases h

/-! ### What a run shows -/

theorem issued_append (a b : List Event) : issued (a ++ b) = issued a ++ issued b := List.filterMap_append

theorem transactions_append (a b : List Event) : transactions (a ++ b) = transactions a ++ transactions b :=
  List.filterMap_append

theorem diagnostics_append (a b : List Event) : diagnostics (a ++ b) = diagnostics a ++ diagnostics b :=
  List.filterMap_append

theorem responses_append (a b : List Event) : responses (a ++ b) = responses a ++ responses b := List.filterMap_append

/-- What plans leave in `MODE`, the first plan's commit written first. -/
theorem modeAfter_cons (m : Mode) (p : Plan) (plans : List Plan) :
    modeAfter m (p :: plans) = modeAfter (p.commit.getD m) plans := rfl

/-! ### Reset -/

/-- The state without the sample of the reset input that a step uses up. -/
def State.pastSample (s : State) : State := { s with resetLine := s.resetLine.tail }

section
variable (s : State)
@[simp] theorem State.pastSample_mode : s.pastSample.mode = s.mode := rfl
@[simp] theorem State.pastSample_devAddr : s.pastSample.devAddr = s.devAddr := rfl
@[simp] theorem State.pastSample_fault : s.pastSample.fault = s.fault := rfl
@[simp] theorem State.pastSample_rp : s.pastSample.rp = s.rp := rfl
@[simp] theorem State.pastSample_phase : s.pastSample.phase = s.phase := rfl
@[simp] theorem State.pastSample_cur : s.pastSample.cur = s.cur := rfl
@[simp] theorem State.pastSample_txq : s.pastSample.txq = s.txq := rfl
@[simp] theorem State.pastSample_inflight : s.pastSample.inflight = s.inflight := rfl
@[simp] theorem State.pastSample_commit : s.pastSample.commit = s.commit := rfl
@[simp] theorem State.pastSample_resp : s.pastSample.resp = s.resp := rfl
@[simp] theorem State.pastSample_frame : s.pastSample.frame = s.frame := rfl
@[simp] theorem State.pastSample_req : s.pastSample.req = s.req := rfl
@[simp] theorem State.pastSample_transport : s.pastSample.transport = s.transport := rfl
@[simp] theorem State.pastSample_resetLine : s.pastSample.resetLine = s.resetLine.tail := rfl
@[simp] theorem State.pastSample_trace : s.pastSample.trace = s.trace := rfl
end

theorem step_of_reset (s : State) (rest : List Bool) (h : s.resetLine = true :: rest) :
    step s = .next { s with resetLine := rest }.applyReset := by
  simp [step, State.sampleReset, h]

theorem step_of_no_reset (s : State) (h : s.resetLine.head? ≠ some true) :
    step s = engine s.pastSample := by
  unfold step State.sampleReset
  split
  · rename_i t ht
    split at ht
    · cases ht
    · rename_i r rest hl
      simp only [Prod.mk.injEq] at ht
      simp [hl, ht.1] at h
  · rename_i t ht
    split at ht
    · rename_i hl
      simp only [Prod.mk.injEq] at ht
      rw [← ht.2]
      congr 1
      cases s
      simp_all [State.pastSample]
    · rename_i r rest hl
      simp only [Prod.mk.injEq] at ht
      rw [← ht.2, State.pastSample, hl]
      rfl

/-! ### The engine -/

theorem engine_fault (s : State) (h : s.fault = true ∨ s.phase = .faulted) : engine s = .fault .faulted := by
  unfold engine
  split
  · rfl
  · rcases h with h | h
    · contradiction
    · rw [h]

theorem engine_exec (s : State) (hf : s.fault = false) (h : s.phase = .exec) : engine s = .next s.execPhase := by
  simp [engine, hf, h]

/-- `CUR` with the byte `b` consumed (R32). -/
def State.curWith (s : State) (b : Byte) : List Byte := if s.phase = .idle then [b] else s.cur ++ [b]

/-- The state that has consumed the byte `b` (R32). -/
def State.consume (s : State) (b : Byte) (rest : List Byte) : State :=
  { s with req := rest, rp := s.rp + 1, cur := s.curWith b }

theorem engine_hold (s : State) (hf : s.fault = false) (h : s.phase = .idle ∨ s.phase = .recv) (hr : s.req = []) :
    engine s = .next s := by
  rcases h with h | h <;> simp [engine, hf, h, fetch, hr]

theorem engine_incomplete (s : State) (b : Byte) (rest : List Byte) (hf : s.fault = false)
    (h : s.phase = .idle ∨ s.phase = .recv) (hr : s.req = b :: rest) (hd : decode (s.curWith b) = .error .incomplete) :
    engine s = .next { s.consume b rest with phase := .recv } := by
  unfold State.curWith at hd
  rcases h with h | h <;> simp [h] at hd <;> simp [engine, hf, h, fetch, hr, hd, State.consume, State.curWith]

theorem engine_illegal (s : State) (b x : Byte) (rest : List Byte) (hf : s.fault = false)
    (h : s.phase = .idle ∨ s.phase = .recv) (hr : s.req = b :: rest)
    (hd : decode (s.curWith b) = .error (.illegalOpcode x)) :
    engine s = .next (s.consume b rest).enterFault := by
  unfold State.curWith at hd
  rcases h with h | h <;> simp [h] at hd <;> simp [engine, hf, h, fetch, hr, hd, State.consume, State.curWith]

theorem engine_complete (s : State) (b : Byte) (rest tail : List Byte) (i : Instr) (hf : s.fault = false)
    (h : s.phase = .idle ∨ s.phase = .recv) (hr : s.req = b :: rest) (hd : decode (s.curWith b) = .ok (i, tail)) :
    engine s = exec i { s.consume b rest with phase := .exec } := by
  unfold State.curWith at hd
  rcases h with h | h <;> simp [h] at hd <;> simp [engine, hf, h, fetch, hr, hd, State.consume, State.curWith]

/-- What the engine can do, said once: it stops in `FAULT`, runs a clause of `EXEC`, waits for a byte, or consumes one, which
is part of a request, an illegal opcode, or the last of a request (R32). -/
theorem engine_cases (s : State) :
    ((s.fault = true ∨ s.phase = .faulted) ∧ engine s = .fault .faulted) ∨
    (s.fault = false ∧ s.phase = .exec ∧ engine s = .next s.execPhase) ∨
    (s.fault = false ∧ (s.phase = .idle ∨ s.phase = .recv) ∧ s.req = [] ∧ engine s = .next s) ∨
    ∃ b rest, s.fault = false ∧ (s.phase = .idle ∨ s.phase = .recv) ∧ s.req = b :: rest ∧
      ((decode (s.curWith b) = .error .incomplete ∧ engine s = .next { s.consume b rest with phase := .recv }) ∨
       (∃ x, decode (s.curWith b) = .error (.illegalOpcode x) ∧ engine s = .next (s.consume b rest).enterFault) ∨
       (∃ i tail, decode (s.curWith b) = .ok (i, tail) ∧
          engine s = exec i { s.consume b rest with phase := .exec })) := by
  by_cases hstop : s.fault = true ∨ s.phase = .faulted
  · exact Or.inl ⟨hstop, engine_fault s hstop⟩
  · have hf : s.fault = false := by simp only [not_or, Bool.not_eq_true] at hstop; exact hstop.1
    have hp : s.phase ≠ .faulted := fun h => hstop (Or.inr h)
    by_cases hx : s.phase = .exec
    · exact Or.inr (Or.inl ⟨hf, hx, engine_exec s hf hx⟩)
    · have h : s.phase = .idle ∨ s.phase = .recv := by
        cases he : s.phase <;> simp_all
      right; right
      cases hr : s.req with
      | nil => exact Or.inl ⟨hf, h, rfl, engine_hold s hf h hr⟩
      | cons b rest =>
        refine Or.inr ⟨b, rest, hf, h, rfl, ?_⟩
        cases hd : decode (s.curWith b) with
        | error e =>
          cases e with
          | incomplete => exact Or.inl ⟨rfl, engine_incomplete s b rest hf h hr hd⟩
          | illegalOpcode x => exact Or.inr (Or.inl ⟨x, rfl, engine_illegal s b x rest hf h hr hd⟩)
        | ok r => exact Or.inr (Or.inr ⟨r.1, r.2, rfl, engine_complete s b rest r.2 r.1 hf h hr hd⟩)

/-! ### The clauses of `EXEC` -/

/-- `EXEC` changes `MODE` only to the commit (R85). -/
theorem execPhase_mode (s : State) : s.execPhase.mode = s.mode ∨ s.commit = some s.execPhase.mode := by
  have h : s.issue.poll.commit = s.commit ∧ s.issue.poll.mode = s.mode := by simp
  unfold State.execPhase State.finish
  split
  · cases hc : s.commit <;> simp [hc]
  · exact Or.inl h.2

/-- The issue event of the head of `TXQ`, where it is not in flight yet. -/
def State.issueEvents (s : State) (p : List Byte) : List Event := if s.inflight then [] else [.issue s.devAddr p]

theorem issue_cons (s : State) (p : List Byte) (q : List (List Byte)) (h : s.txq = p :: q) :
    s.issue = { s with inflight := true, trace := s.trace ++ s.issueEvents p } := by
  cases hi : s.inflight <;> simp [State.issue, State.issueEvents, h, hi]
  cases s; simp_all

theorem issue_nil (s : State) (h : s.txq = []) : s.issue = s := by
  unfold State.issue
  split <;> simp_all

/-- With nothing in flight and nothing to issue, the request ends. -/
theorem execPhase_finish (s : State) (h : s.txq = []) (hi : s.inflight = false) :
    s.execPhase =
      { s with mode := s.commit.getD s.mode, trace := s.trace ++ s.resp.toList.map .respond, commit := none, resp := none,
               cur := [], frame := [], phase := .idle } := by
  simp [State.execPhase, issue_nil s h, State.poll, State.finish, hi, h]

/-- The transport does not answer. -/
theorem execPhase_silent (s : State) (p : List Byte) (q : List (List Byte)) (h : s.txq = p :: q) (ht : s.transport = []) :
    s.execPhase = { s with inflight := true, trace := s.trace ++ s.issueEvents p } := by
  simp [State.execPhase, issue_cons s p q h, State.poll, State.finish, ht]

/-- The transport has no answer yet. -/
theorem execPhase_wait (s : State) (p : List Byte) (q : List (List Byte)) (as : List (Option Answer)) (h : s.txq = p :: q)
    (ht : s.transport = none :: as) :
    s.execPhase = { s with inflight := true, transport := as, trace := s.trace ++ s.issueEvents p } := by
  simp [State.execPhase, issue_cons s p q h, State.poll, State.finish, ht]

/-- The transport answers, and another transaction is to come. -/
theorem execPhase_more (s : State) (p : List Byte) (q : List (List Byte)) (r : Answer) (as : List (Option Answer))
    (h : s.txq = p :: q) (hq : q ≠ []) (ht : s.transport = some r :: as) :
    s.execPhase =
      { s with inflight := false, txq := q, transport := as,
               trace := s.trace ++ s.issueEvents p ++ answerEvents p r } := by
  cases q with
  | nil => contradiction
  | cons p' q => simp [State.execPhase, issue_cons s p _ h, State.poll, State.finish, ht, h]

/-- The transport answers the last transaction, and the request ends. -/
theorem execPhase_last (s : State) (p : List Byte) (r : Answer) (as : List (Option Answer)) (h : s.txq = [p])
    (ht : s.transport = some r :: as) :
    s.execPhase =
      { s with inflight := false, txq := [], transport := as, mode := s.commit.getD s.mode, commit := none, resp := none,
               cur := [], frame := [], phase := .idle,
               trace := s.trace ++ s.issueEvents p ++ answerEvents p r ++ s.resp.toList.map .respond } := by
  simp [State.execPhase, issue_cons s p _ h, State.poll, State.finish, ht, h]

end Sys2Proof.Machine
end

