-- ==== Sys2Proof/Tests/Slice0.lean ====
section
/-! SUPPORT. Tests and witnesses. The expected bytes come from spec/95_test_vectors.md (the id of the vector is named) or are
written out from spec/30_encoding.md; a witness shows a concrete state that meets all hypotheses of a statement together. -/

namespace Sys2Proof.Tests

open Sys2Proof.Machine

/-! ### WellFormed refuses what has no encoding -/

theorem test_wf_payload_longest : (Instr.sendArray (List.replicate 65535 0)).wellFormed = true := by
  simp only [Instr.wellFormed, payloadFits, List.length_replicate]; decide

theorem test_wf_payload_too_long : (Instr.sendArray (List.replicate 65536 0)).wellFormed = false := by
  simp only [Instr.wellFormed, payloadFits, List.length_replicate]; decide

theorem test_wf_samples_too_many_putImage :
    (Instr.putImage 0 1 8 (List.replicate 4294967296 0)).wellFormed = false := by
  simp only [Instr.wellFormed, samplesFit, List.length_replicate]; decide

theorem test_wf_samples_too_many_pack : (Instr.pack 0 1 8 (List.replicate 4294967296 0)).wellFormed = false := by
  simp only [Instr.wellFormed, samplesFit, List.length_replicate]; decide

theorem test_wf_samples_most : (Instr.pack 0 1 8 (List.replicate 4294967295 0)).wellFormed = true := by
  simp only [Instr.wellFormed, samplesFit, List.length_replicate]; decide

/-! ### Decoding, each byte written out bit by bit from R60 and R63 -/

theorem test_decode_SEND_CMD : decode [0b00000001, 0b10101111] = .ok (.sendCmd 0xAF, []) := rfl

theorem test_decode_SEND_DATA : decode [0b00000010, 0b10000001] = .ok (.sendData 0x81, []) := rfl

theorem test_decode_SEND_ARRAY :
    decode [0b00000011, 0b00000010, 0b00000000, 0b00010001, 0b00100010] = .ok (.sendArray [0x11, 0x22], []) := rfl

theorem test_decode_SET_HMODE : decode [0b00000100, 0b00001100] = .ok (.setHmode, [0x0C]) := rfl

theorem test_decode_SET_PMODE : decode [0b00000101, 0b00001100] = .ok (.setPmode, [0x0C]) := rfl

theorem test_decode_SET_TEXT_XY : decode [0b00000110, 0b00001111, 0b00000111] = .ok (.setTextXy 15 7, []) := rfl

theorem test_decode_PUT_CHAR :
    decode [0b00000111, 0b00111010, 0b00100110, 0b00000000] = .ok (.putChar 0x263A, []) := rfl

theorem test_decode_PUT_IMAGE :
    decode [0b00001000, 0b01111111, 0b00000010, 0b00000001, 0b00001000, 0b00000000, 0b00000001, 0b00000000, 0b00000000,
      0b00000000, 0b11111111] = .ok (.putImage 127 258 8 [0xFF], []) := rfl

theorem test_decode_PACK :
    decode [0b00001001, 0b01100100, 0b00000001, 0b00000000, 0b00001000, 0b00000010, 0b00000000, 0b00000000, 0b00000000,
      0b00000000, 0b00000100] = .ok (.pack 100 1 520 [], [0x04]) := rfl

theorem test_decode_SETUP : decode [0b00001010, 0b00000010] = .ok (.setup 2, []) := rfl

theorem test_decode_SET_BRIGHTNESS : decode [0b00001011, 0b11111111] = .ok (.setBrightness 255, []) := rfl

theorem test_decode_READ_MODE : decode [0b00001100] = .ok (.readMode, []) := rfl

theorem test_decode_illegal_0D : decode [0b00001101, 0b00000100] = .error (.illegalOpcode 0x0D) := rfl

theorem test_decode_part_of_a_request : decode [0x03, 0x05, 0x00, 0x11, 0x22] = .error .incomplete := rfl

theorem test_encode_PACK :
    encode (.pack 0x64 0x0201 0x0403 [0xAA]) =
      [0x09, 0x64, 0x01, 0x02, 0x03, 0x04, 0x01, 0x00, 0x00, 0x00, 0xAA] := by decide

/-! ### The table's words -/

theorem test_table_words :
    (List.range 14).map (decodeTableWord 8) =
      [none, some (.sendCmd 0), some (.sendData 0), some (.sendArray []), some .setHmode, some .setPmode,
       some (.setTextXy 0 0), some (.putChar 0), some (.putImage 0 0 0 []), some (.pack 0 0 0 []), some (.setup 0),
       some (.setBrightness 0), some .readMode, none] := by decide

theorem test_table_word_operand : decodeTableWord 16 0xAE01 = some (.sendCmd 0xAE) := by decide

/-- Whether a step answers a next state, in `EXEC`, with its request's response known. -/
def runsNext (o : Host.Outcome State Fault Refusal) : Bool :=
  match o with
  | .next t => t.phase == .exec && t.resp.isSome
  | _ => false

theorem test_table_words_run :
    ∀ k ∈ [1, 2, 3, 4, 5, 6, 7, 8, 9, 10, 11, 12], runsNext (step (State.reset.withFetchWord 8 k)) = true := by decide

/-! ### One request each -/

/-- The transactions a request yields after reset. -/
def txns (i : Instr) : Option (List (List Byte)) :=
  match exec i State.reset with
  | .next t => some t.txq
  | _ => none

/-- The response bytes a request yields after reset. -/
def answer (i : Instr) : Option (List Byte) :=
  match exec i State.reset with
  | .next t => t.resp.map fun r => r.status :: r.data
  | _ => none

/-- The commit a request yields after reset. -/
def commits (i : Instr) : Option Mode :=
  match exec i State.reset with
  | .next t => t.commit
  | _ => none

/-- A3. -/
theorem test_SEND_CMD : txns (.sendCmd 0x20) = some [[0x00, 0x20]] ∧ commits (.sendCmd 0x20) = none := by decide

/-- A5. -/
theorem test_SEND_DATA : txns (.sendData 0xFF) = some [[0x40, 0xFF]] ∧ answer (.sendData 0xFF) = some [0x00] := by decide

/-- W1. -/
theorem test_SEND_ARRAY_empty : txns (.sendArray []) = some [[0x40]] := by decide

/-- W5. -/
theorem test_SEND_ARRAY_32 :
    (txns (.sendArray ((List.range 32).map (BitVec.ofNat 8)))).map (List.map List.length) = some [32, 2] ∧
    (txns (.sendArray ((List.range 32).map (BitVec.ofNat 8)))).map (fun q => q.drop 1) = some [[0x40, 0x1F]] := by decide

/-- M1. -/
theorem test_SET_HMODE :
    txns .setHmode = some [[0x00, 0x20], [0x00, 0x00]] ∧ commits .setHmode = some .horizontal := by decide

/-- M2. -/
theorem test_SET_PMODE : txns .setPmode = some [[0x00, 0x20], [0x00, 0x02]] ∧ commits .setPmode = some .page := by decide

/-- M6. -/
theorem test_READ_MODE : txns .readMode = some [] ∧ answer .readMode = some [0x00, 0x00] := by decide

/-- X4. -/
theorem test_SET_TEXT_XY : txns (.setTextXy 0x0F 0x07) = some [[0x00, 0xB7], [0x00, 0x08], [0x00, 0x17]] := by decide

/-- X8, X8a. -/
theorem test_SET_TEXT_XY_last_row :
    txns (.setTextXy 0xFF 0x4F) = some [[0x00, 0xFF], [0x00, 0x08], [0x00, 0x1F]] ∧
    txns (.setTextXy 0x00 0x50) = some [] ∧ answer (.setTextXy 0x00 0x50) = some [0x02] := by decide

/-- X9, X10, X12, X13: the glyph of each codepoint. -/
theorem test_PUT_CHAR_glyphs :
    [32, 65, 126, 127, 31, 128, 0, 0x263A, 0xFFFFFF].map (fun n => glyphIndex (BitVec.ofNat 24 n)) =
      [0, 33, 94, 95, 0, 0, 0, 0, 0] := by decide

/-- X10. -/
theorem test_PUT_CHAR : txns (.putChar 65) = some [0x40 :: List.ofFn (Config.font 33)] := rfl

/-- K9. -/
theorem test_PACK_two_pages :
    answer (.pack 0 2 16
      ([0xFF, 0x00] ++ List.replicate 12 0 ++ [0x00, 0xFF, 0x00, 0x00, 0xFF, 0x00] ++ List.replicate 10 0 ++ [0x00, 0xFF])) =
      some [0x00, 0x01, 0x80, 0x02, 0x80] := by decide

/-- K3, K12. -/
theorem test_PACK_threshold :
    answer (.pack 100 1 8 [100, 101, 100, 101, 100, 101, 100, 101]) = some [0x00, 0xAA] ∧
    answer (.pack 0 2 8 (List.replicate 15 0)) = some [0x01] := by decide

/-- K16. -/
theorem test_PUT_IMAGE :
    txns (.putImage 127 2 8 [0xFF, 0, 0, 0, 0xFF, 0, 0, 0, 0xFF, 0, 0, 0, 0xFF, 0, 0, 0]) = some [[0x40, 0x55, 0x00]] ∧
    answer (.putImage 127 2 8 [0xFF, 0, 0, 0, 0xFF, 0, 0, 0, 0xFF, 0, 0, 0, 0xFF, 0, 0, 0]) = some [0x00] := by decide

/-- K11, K14, K15. -/
theorem test_PUT_IMAGE_invalid :
    [Instr.putImage 0 1 12 (List.replicate 12 0), .putImage 0 0 8 [], .putImage 0 1 0 []].map
      (fun i => (txns i, answer i)) = List.replicate 3 (some [], some [0x01]) := by decide

/-- X14: twenty transactions of INIT_SEQ, then the switch. -/
theorem test_SETUP :
    (txns (.setup 1)).map List.length = some 22 ∧
    (txns (.setup 1)).map (fun q => q.drop 20) = some [[0x00, 0x20], [0x00, 0x00]] ∧
    commits (.setup 1) = some .horizontal := ⟨rfl, rfl, rfl⟩

/-- X16. -/
theorem test_SETUP_reserved :
    [0x00, 0x03, 0xFF].map (fun b => (txns (.setup b), answer (.setup b), commits (.setup b))) =
      List.replicate 3 (some [], some [0x02], none) := by decide

/-- X17. -/
theorem test_SET_BRIGHTNESS : txns (.setBrightness 0x80) = some [[0x00, Config.contrastCmd], [0x00, 0x80]] := rfl

/-! ### States for the engine's tests and the witnesses -/

/-- `SET_PMODE` running, its first command in flight (F8), `READ_MODE` on the stream behind it. -/
def midSwitch : State :=
  { State.reset with
    rp := 1
    phase := .exec
    cur := [0x05]
    txq := [[0x00, 0x20], [0x00, 0x02]]
    inflight := true
    commit := some .page
    resp := some ⟨0x00, []⟩
    req := [0x0C]
    trace := [.issue Config.devAddr [0x00, 0x20]] }

/-- A part of a SEND_ARRAY of one byte is consumed; an earlier transaction failed, and its request was answered. -/
def midRequest : State :=
  { State.reset with
    rp := 5
    phase := .recv
    cur := [0x03, 0x01, 0x00]
    req := [0x55]
    trace := [.issue Config.devAddr [0x00, 0xAE], .answer [0x00, 0xAE] .failure, .txFail [0x00, 0xAE], .respond ⟨0x00, []⟩] }

theorem midSwitch_inv : Inv midSwitch where
  faultPhase := by decide
  devAddr := rfl
  quiet h := absurd rfl h
  idleCur h := by cases h
  recvCur h := by cases h
  execCur _ := ⟨⟨.setPmode, rfl⟩, by simp [midSwitch]⟩
  inflightTxq _ := by simp [midSwitch]
  txqLegal := by decide
  respLegal := by decide
  commitMode := by decide
  frameWf := List.Pairwise.nil
  rpCur := by decide
  traceBus := by simp [busAfter, midSwitch, BusState.after, State.busState, legalTxn, Config.prefixCmd]

theorem midRequest_inv : Inv midRequest where
  faultPhase := by decide
  devAddr := rfl
  quiet _ := ⟨rfl, rfl, rfl, rfl, rfl⟩
  idleCur h := by cases h
  recvCur _ := ⟨by simp [midRequest], rfl⟩
  execCur h := by cases h
  inflightTxq h := by cases h
  txqLegal := by decide
  respLegal := by decide
  commitMode := by decide
  frameWf := List.Pairwise.nil
  rpCur := by decide
  traceBus := by
    simp [busAfter, midRequest, BusState.after, State.busState, legalTxn, legalResponse, statusOk, Config.prefixCmd,
      State.reset]

/-- `midSwitch`, its first command failed, its second in flight and about to be answered. -/
def midSwitchLast : State :=
  { midSwitch with
    txq := [[0x00, 0x02]]
    transport := [some .success]
    trace := [.issue Config.devAddr [0x00, 0x20], .answer [0x00, 0x20] .failure, .txFail [0x00, 0x20],
      .issue Config.devAddr [0x00, 0x02]] }

theorem midSwitchLast_inv : Inv midSwitchLast where
  faultPhase := by decide
  devAddr := rfl
  quiet h := absurd rfl h
  idleCur h := by cases h
  recvCur h := by cases h
  execCur _ := ⟨⟨.setPmode, rfl⟩, by simp [midSwitchLast, midSwitch]⟩
  inflightTxq _ := by simp [midSwitchLast]
  txqLegal := by decide
  respLegal := by decide
  commitMode := by decide
  frameWf := List.Pairwise.nil
  rpCur := by decide
  traceBus := by simp [busAfter, midSwitchLast, midSwitch, BusState.after, State.busState, legalTxn, Config.prefixCmd]

/-- Between requests: SET_PMODE has run, its first command failed; SEND_CMD, READ_MODE and a first byte more are offered, and the
transport takes one transaction. -/
def betweenRequests : State :=
  { State.reset with
    mode := .page
    rp := 1
    req := [0x01, 0xAE, 0x0C, 0x01]
    transport := [some .success]
    trace := [.issue Config.devAddr [0x00, 0x20], .answer [0x00, 0x20] .failure, .txFail [0x00, 0x20],
      .issue Config.devAddr [0x00, 0x02], .answer [0x00, 0x02] .success, .respond ⟨0x00, []⟩] }

theorem betweenRequests_inv : Inv betweenRequests where
  faultPhase := by decide
  devAddr := rfl
  quiet _ := ⟨rfl, rfl, rfl, rfl, rfl⟩
  idleCur _ := rfl
  recvCur h := by cases h
  execCur h := by cases h
  inflightTxq h := by cases h
  txqLegal := by decide
  respLegal := by decide
  commitMode := by decide
  frameWf := List.Pairwise.nil
  rpCur := by decide
  traceBus := by
    simp [busAfter, betweenRequests, BusState.after, State.busState, legalTxn, legalResponse, statusOk, Config.prefixCmd,
      State.reset]

/-! ### The engine, one step each -/

/-- What a step shows of the state it leads to. -/
def shows (o : Host.Outcome State Fault Refusal) : Option (Phase × Bool × Nat × Mode × List Byte) :=
  match o with
  | .next t => some (t.phase, t.fault, t.rp, t.mode, t.req)
  | _ => none

/-- F2. -/
theorem test_illegal_opcode :
    shows (step { State.reset with req := [0x0D, 0x04] }) = some (.faulted, true, 1, .unset, [0x04]) := by decide

/-- F4, F7: reset leaves `FAULT` and clears `MODE`. -/
theorem test_reset_leaves_FAULT :
    shows (step { State.reset with fault := true, phase := .faulted, rp := 7, mode := .page, req := [0x04], resetLine := [true] }) =
      some (.idle, false, 0, .unset, [0x04]) := by decide

/-- F5: the engine holds in `RECV`. -/
theorem test_hold_in_RECV :
    shows (step { State.reset with phase := .recv, rp := 5, cur := [0x03, 0x05, 0x00, 0x11, 0x22] }) =
      some (.recv, false, 5, .unset, []) := by decide

/-- F8: the transport never answers. -/
theorem test_hold_in_flight : shows (step midSwitch) = some (.exec, false, 1, .unset, [0x0C]) := by decide

/-- M10, second step: the mode is committed with the last answer, even a failure. -/
theorem test_commit_after_failure :
    shows (step { midSwitch with txq := [[0x00, 0x02]], transport := [some .failure] }) =
      some (.idle, false, 1, .page, [0x0C]) := by decide

/-! ### Witnesses: each shows that the hypotheses of a statement can be met -/

theorem witness_FieldsAreAssembledLittleEndian_payload :
    (List.replicate 65535 (0 : Byte)).length = (0xFF : Byte).toNat + 256 * (0xFF : Byte).toNat ∧
    ([] : List Byte).length = (0 : Byte).toNat + 256 * (0 : Byte).toNat := ⟨by rw [List.length_replicate]; decide, rfl⟩

theorem witness_FieldsAreAssembledLittleEndian_samples :
    (List.replicate 4294967295 (0 : Byte)).length =
      (0xFF : Byte).toNat + 256 * (0xFF : Byte).toNat + 65536 * (0xFF : Byte).toNat + 16777216 * (0xFF : Byte).toNat ∧
    ([0x01] : List Byte).length =
      (1 : Byte).toNat + 256 * (0 : Byte).toNat + 65536 * (0 : Byte).toNat + 16777216 * (0 : Byte).toNat :=
  ⟨by rw [List.length_replicate]; decide, rfl⟩

theorem witness_DecodeOfEncode : (Instr.putImage 127 2 8 (List.replicate 16 0)).wellFormed = true := by decide

theorem witness_EncodeOfDecode : decode [0x06, 0x02, 0x03, 0x0C] = .ok (.setTextXy 2 3, [0x0C]) := rfl

theorem witness_RequestEndsAtReqLen_wellFormed : (Instr.sendArray (List.replicate 65535 0)).wellFormed = true := by
  simp only [Instr.wellFormed, payloadFits, List.length_replicate]; decide

theorem witness_RequestEndsAtReqLen_complete :
    decode [0x03, 0x01, 0x00, 0x55, 0x0C] = .ok (.sendArray [0x55], [0x0C]) ∧
    reqLen [0x03, 0x01, 0x00, 0x55, 0x0C] = some 4 ∧ decode [0x03, 0x01, 0x00, 0x55] = .ok (.sendArray [0x55], []) :=
  ⟨rfl, rfl, rfl⟩

/-- The first clause, with no byte to spare and with one. -/
theorem witness_RequestEndsAtReqLen_known :
    reqLen [0x0C] = some 1 ∧ 1 ≤ ([0x0C] : List Byte).length ∧
    reqLen [0x03, 0x01, 0x00, 0x55, 0x0C] = some 4 ∧ 4 ≤ ([0x03, 0x01, 0x00, 0x55, 0x0C] : List Byte).length := by decide

theorem witness_IllegalOpcodeBytes :
    decode [0x00] = .error (.illegalOpcode 0x00) ∧ decode [0x0D] = .error (.illegalOpcode 0x0D) ∧
    decode [0xFF] = .error (.illegalOpcode 0xFF) := ⟨rfl, rfl, rfl⟩

/-- Payloads of 31 and 32 bytes: below and in the range of R78's law 3, with a chunk at each index. -/
theorem witness_SendArrayYieldsTheChunks :
    32 ≤ (List.replicate 32 (0 : Byte)).length ∧ (chunks (List.replicate 32 0))[1]? = some [0x40, 0x00] ∧
    (List.replicate 31 (0 : Byte)).length < 32 ∧ 1 ≤ (List.replicate 31 (0 : Byte)).length ∧
    [0x40] ∈ chunks [] ∧ ([0x40] : List Byte).tail = [] := by decide

theorem witness_ReadModeYieldsTheModeByte :
    State.reset.mode = .unset ∧ { State.reset with mode := Mode.horizontal }.mode = .horizontal ∧
    { State.reset with mode := Mode.page }.mode = .page := ⟨rfl, rfl, rfl⟩

theorem witness_SetTextXyYieldsThreeCommands : (0x4F : Byte).toNat < 80 ∧ 80 ≤ (0x50 : Byte).toNat := by decide

theorem witness_ColumnCommandsAlias : (32 : Byte).toNat = (0 : Byte).toNat + 32 ∧ (255 : Byte).toNat = (223 : Byte).toNat + 32 := by
  decide

theorem witness_SetupYieldsInitAndModeSwitch : (0x00 : Byte) ≠ 0x01 ∧ (0x00 : Byte) ≠ 0x02 ∧ (0x03 : Byte) ≠ 0x02 := by decide

/-- A valid image of one column and one page, with its pixel of row 7; PACK, PUT_IMAGE, the threshold and purity. -/
theorem witness_valid_image :
    1 ≤ (1 : BitVec 16).toNat ∧ 1 ≤ (8 : BitVec 16).toNat ∧ (8 : BitVec 16).toNat % 8 = 0 ∧
    ([0x64, 0x65, 0, 0, 0, 0, 0, 0x65] : List Byte).length = (1 : BitVec 16).toNat * (8 : BitVec 16).toNat ∧
    0 < (8 : BitVec 16).toNat / 8 ∧ 0 < (1 : BitVec 16).toNat ∧ 7 < 8 ∧
    answer (.pack 0x64 1 8 [0x64, 0x65, 0, 0, 0, 0, 0, 0x65]) = some [0x00, 0x82] := by decide

/-- The greatest width: a row of 65535 samples in each of eight rows. -/
theorem witness_valid_image_widest :
    1 ≤ (65535 : BitVec 16).toNat ∧ 1 ≤ (8 : BitVec 16).toNat ∧ (8 : BitVec 16).toNat % 8 = 0 ∧
    (List.replicate 524280 (0 : Byte)).length = (65535 : BitVec 16).toNat * (8 : BitVec 16).toNat :=
  ⟨by decide, by decide, by decide, by rw [List.length_replicate]; decide⟩

/-- The threshold's clauses on one image: a sample equal to `S`, one above it; `S = 0` and `S = 255` (K3, K6, K5). -/
theorem witness_ThresholdIsStrict :
    answer (.pack 0x64 1 8 [100, 101, 100, 101, 100, 101, 100, 101]) = some [0x00, 0xAA] ∧
    answer (.pack 0 1 8 [0, 1, 0, 0, 0, 0, 0, 0]) = some [0x00, 0x02] ∧
    answer (.pack 0xFF 1 8 (List.replicate 8 0xFF)) = some [0x00, 0x00] := by decide

theorem witness_InvalidImagesAreRejected :
    ∀ x ∈ [(0, 8, 0), (1, 0, 0), (1, 12, 12), (2, 8, 15), (2, 8, 17)],
      ¬ (1 ≤ (BitVec.ofNat 16 x.1).toNat ∧ 1 ≤ (BitVec.ofNat 16 x.2.1).toNat ∧ (BitVec.ofNat 16 x.2.1).toNat % 8 = 0 ∧
        (List.replicate x.2.2 (0 : Byte)).length = (BitVec.ofNat 16 x.1).toNat * (BitVec.ofNat 16 x.2.1).toNat) := by decide

theorem witness_YieldedTransactionsAreLegal :
    ∃ t r, exec (.pack 0 1 8 (List.replicate 8 0xFF)) State.reset = .next t ∧ t.resp = some r ∧ r.data ≠ [] := by
  refine ⟨_, _, rfl, rfl, ?_⟩
  decide

theorem witness_YieldedTransactionsAreLegal_raised :
    ∃ t r, exec (.setup 0) midSwitch = .next t ∧ t.resp = some r ∧ r.status ≠ 0x00 := by
  refine ⟨_, _, rfl, rfl, ?_⟩
  decide

theorem witness_OnlyModeSwitchesWriteMode_exec : ∃ t, exec (.setup 0x02) midRequest = .next t ∧ t.commit = some .page :=
  ⟨_, rfl, rfl⟩

theorem witness_OnlyModeSwitchesWriteMode_commit :
    ∃ t, step { midSwitch with txq := [[0x00, 0x02]], transport := [some .success] } = .next t ∧
      t.mode ≠ midSwitch.mode := by
  refine ⟨_, rfl, ?_⟩
  decide

theorem witness_OnlyModeSwitchesWriteMode_reset :
    ∃ t, step { midRequest with mode := .page, resetLine := [true] } = .next t ∧ t.mode ≠ .page := by
  refine ⟨_, rfl, ?_⟩
  decide

theorem witness_OnlyReadModeReadsMode : Instr.setPmode ≠ .readMode := by decide

theorem witness_StepRunsTheDecodedRequest_idle :
    ({ State.reset with req := [0x0C] }.resetLine.head? ≠ some true) ∧ State.reset.fault = false ∧
    { State.reset with req := [0x0C] }.req = 0x0C :: [] ∧ State.reset.phase = .idle ∧
    decode [0x0C] = .ok (.readMode, []) := ⟨by decide, rfl, rfl, rfl, rfl⟩

theorem witness_StepRunsTheDecodedRequest_recv :
    midRequest.resetLine.head? ≠ some true ∧ midRequest.fault = false ∧ midRequest.req = 0x55 :: [] ∧
    midRequest.phase = .recv ∧ decode (midRequest.cur ++ [0x55]) = .ok (.sendArray [0x55], []) :=
  ⟨by decide, rfl, rfl, rfl, rfl⟩

theorem witness_StepRunsThePlacedRequest : (Instr.sendArray [0x00, 0x01, 0x02]).wellFormed = true := by decide

theorem witness_RequestBytesAreConsumedInOrder :
    midRequest.resetLine.head? ≠ some true ∧ (∃ t, step midRequest = .next t ∧ t.req = []) ∧
    (∃ t, step { midRequest with req := [] } = .next t) ∧ ∃ t, step midSwitch = .next t :=
  ⟨by decide, ⟨_, rfl, rfl⟩, ⟨_, rfl⟩, ⟨_, rfl⟩⟩

theorem witness_PartOfARequestIsKept_idle :
    State.reset.resetLine.head? ≠ some true ∧ State.reset.fault = false ∧
    { State.reset with req := [0x01] }.req = 0x01 :: [] ∧ State.reset.phase = .idle ∧
    decode [0x01] = .error .incomplete := ⟨by decide, rfl, rfl, rfl, rfl⟩

theorem witness_PartOfARequestIsKept_recv :
    { midRequest with cur := [0x03, 0x02, 0x00] }.resetLine.head? ≠ some true ∧ midRequest.fault = false ∧
    midRequest.req = 0x55 :: [] ∧ midRequest.phase = .recv ∧
    decode ([0x03, 0x02, 0x00] ++ [0x55]) = .error .incomplete := ⟨by decide, rfl, rfl, rfl, rfl⟩

/-- A running request, with no answer to come, with none yet, with an answer and more transactions, with the last answer, and
with no transaction. -/
theorem witness_RunningRequestSteps :
    midSwitch.resetLine.head? ≠ some true ∧ midSwitch.fault = false ∧ midSwitch.phase = .exec ∧
    midSwitch.txq = [0x00, 0x20] :: [[0x00, 0x02]] ∧ midSwitch.transport = [] ∧ midSwitch.resp = some ⟨0x00, []⟩ ∧
    { midSwitch with transport := [none] }.transport = none :: [] ∧
    { midSwitch with transport := [some .failure] }.transport = some .failure :: [] ∧
    { midSwitch with txq := [[0x00, 0x02]] }.txq = [0x00, 0x02] :: [] ∧
    { midSwitch with txq := [], inflight := false }.txq = [] := ⟨by decide, rfl, rfl, rfl, rfl, rfl, rfl, rfl, rfl, rfl⟩

theorem witness_IllegalOpcodeEntersFault :
    State.reset.resetLine.head? ≠ some true ∧ State.reset.fault = false ∧ State.reset.phase = .idle ∧
    { State.reset with req := [0x0D, 0x04] }.req = 0x0D :: [0x04] ∧ (0x0D : Byte).toNat = 13 ∧ (0x00 : Byte).toNat = 0 ∧
    0x0D ≤ (0xFF : Byte).toNat := by decide

theorem witness_OnlyResetLeavesFault :
    ∃ s t, s.fault = true ∧ s.resetLine.head? ≠ some true ∧ AgentStep s t ∧ t.fault = false :=
  ⟨{ State.reset with fault := true, phase := .faulted, rp := 1, cur := [0x00] }, _, rfl, by decide, .hostResets, rfl⟩

theorem witness_ResetSetsEveryRegister :
    { midSwitch with resetLine := [true] }.resetLine = true :: [] := rfl

theorem midSwitch_reset_inv : Inv { midSwitch with resetLine := [true] } :=
  { midSwitch_inv with }

theorem witness_ResetAbandonsTheRequest :
    Inv { midSwitch with resetLine := [true] } ∧
    ∃ t, step { midSwitch with resetLine := [true] } = .next t ∧ t.req = 0x0C :: [] ∧ t.resetLine.head? ≠ some true ∧
      ∃ u, step t = .next u := ⟨midSwitch_reset_inv, _, rfl, rfl, by decide, _, rfl⟩

theorem witness_HoldsLastForEver :
    midSwitch.resetLine = [] ∧ midSwitch.fault = false ∧ midSwitch.phase = .exec ∧ midSwitch.inflight = true ∧
    midSwitch.transport = [] ∧ State.reset.resetLine = [] ∧ State.reset.fault = false ∧ State.reset.phase = .idle ∧
    State.reset.req = [] ∧ { midRequest with req := [] }.phase = .recv := by decide

theorem witness_BuffersHoldTheVariablePart :
    decode [0x03, 0x01, 0x00, 0x55] = .ok (.sendArray [0x55], []) ∧
    decode [0x08, 0, 1, 0, 8, 0, 1, 0, 0, 0, 0x64] = .ok (.putImage 0 1 8 [0x64], []) ∧
    decode [0x09, 0, 1, 0, 8, 0, 0, 0, 0, 0] = .ok (.pack 0 1 8 [], []) := ⟨rfl, rfl, rfl⟩

theorem witness_FrameWriteSetsOneByte : Memory.wf [(0, 0xAA), (2, 0x55)] ∧ (1 : Nat) ≠ 0 := by
  simp [Memory.wf]

theorem witness_CanonicalFramesAreEqual :
    ∃ m m' : Memory, m.wf ∧ m'.wf ∧ (∀ a, m.read a = m'.read a) ∧ m ≠ [] :=
  ⟨[(0, 0xAA), (2, 0x55)], [(0, 0xAA), (2, 0x55)], by simp [Memory.wf], by simp [Memory.wf], fun _ => rfl, by simp⟩

theorem witness_StepKeepsTheInvariant :
    (Inv midSwitch ∧ ∃ t, step midSwitch = .next t) ∧ Inv midRequest ∧ ∃ t, step midRequest = .next t ∧ t.phase = .exec :=
  ⟨⟨midSwitch_inv, _, rfl⟩, midRequest_inv, _, rfl, rfl⟩

theorem witness_ReachableStatesAreGood :
    Reachable (State.reset.hostWrite [0x05]) ∧ State.reset.hostWrite [0x05] ≠ State.reset :=
  ⟨.step _ _ .reset (.hostWrites _), by simp [State.hostWrite, State.reset]⟩

theorem witness_TransactionsGoOutOneAtATime : Inv midSwitch ∧ issued midSwitch.trace ≠ [] := ⟨midSwitch_inv, by simp [issued, midSwitch]⟩

theorem witness_DiagnosticsAreTheFailures : Inv midRequest ∧ diagnostics midRequest.trace = [[0x00, 0xAE]] :=
  ⟨midRequest_inv, rfl⟩

theorem witness_FailuresChangeNothing :
    (∃ t, run 1 { midSwitch with transport := [some .failure] } = .next t) ∧
    run 1 { State.reset with fault := true, phase := .faulted } = .fault .faulted := ⟨⟨_, rfl⟩, rfl⟩

/-- SET_PMODE offered to an idle block; the transport waits once, fails the first command and takes the second (M11). -/
theorem witness_RequestRunsToItsResponse :
    Instr.setPmode.wellFormed = true ∧ State.reset.phase = .idle ∧ State.reset.fault = false ∧
    State.reset.inflight = false ∧ State.reset.resetLine = [] ∧
    { State.reset with req := [0x05, 0x0C] }.req = encode .setPmode ++ [0x0C] ∧
    [Answer.failure, .success].length = [[0x00, 0x20], [0x00, (0x02 : Byte)]].length ∧
    [none, some Answer.failure, some .success].filterMap id = [.failure, .success] ∧
    [none, some Answer.failure, some .success].getLast? ≠ some none ∧
    ∃ t, exec .setPmode { State.reset with req := [0x0C], rp := 1, cur := [0x05], phase := .exec } = .next t ∧
      t.txq = [[0x00, 0x20], [0x00, 0x02]] ∧ t.resp = some ⟨0x00, []⟩ :=
  ⟨rfl, rfl, rfl, rfl, rfl, rfl, rfl, rfl, by decide, _, rfl, rfl, rfl⟩

/-- A stream of SEND_CMD and READ_MODE: two requests, their plans in mode Page, and the answers to their transactions. -/
theorem witness_RequestStreamIsServed :
    (∀ i ∈ [Instr.sendCmd 0xAE, .readMode], i.wellFormed = true) ∧ Inv betweenRequests ∧ betweenRequests.phase = .idle ∧
    betweenRequests.resetLine = [] ∧ betweenRequests.req = [Instr.sendCmd 0xAE, .readMode].flatMap encode ++ [0x01] ∧
    [[Answer.success], []].map List.length =
      [Plan.mk [[0x00, 0xAE]] none ⟨0x00, []⟩, ⟨[], none, ⟨0x00, [0x02]⟩⟩].map (fun p => p.txq.length) ∧
    betweenRequests.transport = [[Answer.success], []].flatten.map some ++ [] ∧
    betweenRequests.mode =
      modeAfter betweenRequests.mode ([Plan.mk [[0x00, 0xAE]] none ⟨0x00, []⟩, ⟨[], none, ⟨0x00, [0x02]⟩⟩].take 1) ∧
    exec .readMode betweenRequests =
      .next { betweenRequests with txq := [], commit := none, resp := some ⟨0x00, [0x02]⟩, frame := [] } :=
  ⟨by decide, betweenRequests_inv, rfl, rfl, rfl, rfl, rfl, rfl, rfl⟩

theorem witness_ResponseStreamCarriesTheAnswers_respond :
    midSwitchLast.resetLine.head? ≠ some true ∧ midSwitchLast.phase = .exec ∧ midSwitchLast.resp = some ⟨0x00, []⟩ ∧
    ∃ t, step midSwitchLast = .next t ∧ t.phase = .idle ∧ t.respStream = [0x00] := ⟨by decide, rfl, rfl, _, rfl, rfl, rfl⟩

theorem witness_ResponseStreamCarriesTheAnswers_illegal :
    { betweenRequests with req := [0x00] }.fault = false ∧ { betweenRequests with req := [0x00] }.resetLine.head? ≠ some true ∧
    ∃ t, step { betweenRequests with req := [0x00] } = .next t ∧ t.fault = true ∧ t.respStream = [0x00, 0xFF] :=
  ⟨rfl, by decide, _, rfl, rfl, rfl⟩

/-- PACK with status OK and with another, READ_MODE in each mode, and a request without result bytes. -/
theorem witness_ResponseStreamCarriesTheAnswers_exec :
    (∃ t, exec (.pack 0 1 8 (List.replicate 8 0xFF)) State.reset = .next t ∧ t.resp = some ⟨0x00, [0xFF]⟩) ∧
    (∃ t, exec (.pack 0 1 12 []) State.reset = .next t ∧ t.resp = some ⟨0x01, []⟩) ∧
    (∀ m ∈ [Mode.unset, .horizontal, .page], ∃ t, exec .readMode { State.reset with mode := m } = .next t) ∧
    ∃ t, exec (.setup 0x00) State.reset = .next t ∧ t.resp = some ⟨0x02, []⟩ :=
  ⟨⟨_, rfl, rfl⟩, ⟨_, rfl, rfl⟩, fun _ _ => ⟨_, rfl⟩, _, rfl, rfl⟩

/-- A step of each agent from a state that meets the invariant. -/
theorem witness_AgentStepKeepsTheInvariant :
    Inv midSwitch ∧ (∃ t, step midSwitch = .next t ∧ AgentStep midSwitch t) ∧ AgentStep midSwitch (midSwitch.hostWrite [0x01]) ∧
    AgentStep midSwitch midSwitch.applyReset ∧ AgentStep midSwitch (midSwitch.transportWill [none, some .failure]) :=
  ⟨midSwitch_inv, ⟨_, rfl, .engine _ rfl⟩, .hostWrites _, .hostResets, .transportSettles _⟩

theorem witness_CommitComesAfterTheLastAnswer :
    (Inv midSwitch ∧ midSwitch.phase = .exec ∧ midSwitch.resetLine.head? ≠ some true ∧
      ∃ t, step midSwitch = .next t ∧ t.phase = .exec) ∧
    Inv midSwitchLast ∧ midSwitchLast.phase = .exec ∧ midSwitchLast.resetLine.head? ≠ some true ∧
      ∃ t, step midSwitchLast = .next t ∧ t.phase ≠ .exec ∧ t.mode = .page :=
  ⟨⟨midSwitch_inv, rfl, by decide, _, rfl, rfl⟩, midSwitchLast_inv, rfl, by decide, _, rfl, by decide, rfl⟩

/-- SET_PMODE offered to an idle block; the transport waits, fails the first command, waits again and takes the second (M10's
mix of answers); SETUP with a reserved mode, which needs no answer; and a reset. -/
theorem witness_ModeFollowsItsStateMachine :
    (∀ i ∈ [Instr.setPmode, .setup 0x00], i.wellFormed = true) ∧
    State.reset.phase = .idle ∧ State.reset.fault = false ∧ State.reset.inflight = false ∧ State.reset.resetLine = [] ∧
    { State.reset with req := [0x05, 0x0C] }.req = encode .setPmode ++ [0x0C] ∧
    [[0x00, 0x20], [0x00, (0x02 : Byte)]].length ≤
      ([none, some Answer.failure, none, some .success].filterMap id).length ∧
    { State.reset with req := [0x0A, 0x00] }.req = encode (.setup 0x00) ++ [] ∧
    ([] : List (List Byte)).length ≤ (State.reset.transport.filterMap id).length ∧
    { midSwitch with resetLine := [true] }.resetLine = true :: [] :=
  ⟨by decide, rfl, rfl, rfl, rfl, rfl, by decide, rfl, by decide, rfl⟩

end Sys2Proof.Tests
end

section
/-! PROOFS. The statements of 00_scope.md: every rule of a request completes, and a step stops only in `FAULT`. -/

namespace Sys2Proof.Machine

/-! ### What a request's rule yields -/

/-- The image requests yield a plan on a frame `m` that is the same for both (R96, R97). -/
theorem exec_image_eq_plan (sens : Byte) (w h : BitVec 16) (samples : List Byte) (s : State) :
    ∃ m : Memory,
      (∃ q c r, exec (.pack sens w h samples) s = .next ({ s with frame := m }.plan q c r)) ∧
      ∃ q c r, exec (.putImage sens w h samples) s = .next ({ s with frame := m }.plan q c r) := by
  cases hv : imageValid w.toNat h.toNat samples.length with
  | true =>
    obtain ⟨m, hpack, hput, -⟩ := execPack_valid sens w h samples s hv
    exact ⟨m, ⟨_, _, _, hpack⟩, _, _, _, hput⟩
  | false =>
    obtain ⟨hpack, hput⟩ := execPack_invalid sens w h samples s hv
    exact ⟨s.frame, ⟨_, _, _, hpack⟩, _, _, _, hput⟩

/-- SET_TEXT_XY yields a plan, its row legal or reserved (R98). -/
theorem execSetTextXy_eq_plan (col row : Byte) (s : State) :
    ∃ q c r, execSetTextXy col row s = .next (s.plan q c r) := by
  rcases Nat.lt_or_ge row.toNat 80 with h | h
  · exact ⟨_, _, _, execSetTextXy_legal col row s h⟩
  · exact ⟨_, _, _, execSetTextXy_illegal col row s h⟩

/-- SETUP yields a plan, its mode named or reserved (R102). -/
theorem execSetup_eq_plan (b : Byte) (s : State) : ∃ q c r, execSetup b s = .next (s.plan q c r) := by
  cases h : setupMode b with
  | none => exact ⟨_, _, _, execSetup_reserved b s h⟩
  | some m => exact ⟨_, _, _, execSetup_mode b m s h⟩

/-- What every rule yields, said once: a plan (R31, R32), on the frame as it was except for PACK and PUT_IMAGE. -/
theorem exec_eq_plan (i : Instr) (s : State) :
    ∃ m : Memory, (∃ q c r, exec i s = .next ({ s with frame := m }.plan q c r)) ∧
      (m = s.frame ∨ ∃ sens w h samples, i = .pack sens w h samples ∨ i = .putImage sens w h samples) := by
  cases i with
  | sendCmd b => exact ⟨s.frame, ⟨_, _, _, rfl⟩, .inl rfl⟩
  | sendData b => exact ⟨s.frame, ⟨_, _, _, rfl⟩, .inl rfl⟩
  | sendArray payload => exact ⟨s.frame, ⟨_, _, _, execSendArray_eq payload s⟩, .inl rfl⟩
  | setHmode => exact ⟨s.frame, ⟨_, _, _, rfl⟩, .inl rfl⟩
  | setPmode => exact ⟨s.frame, ⟨_, _, _, rfl⟩, .inl rfl⟩
  | setTextXy col row => exact ⟨s.frame, execSetTextXy_eq_plan col row s, .inl rfl⟩
  | putChar cp => exact ⟨s.frame, ⟨_, _, _, execPutChar_eq cp s⟩, .inl rfl⟩
  | putImage sens w h samples =>
    obtain ⟨m, -, hput⟩ := exec_image_eq_plan sens w h samples s
    exact ⟨m, hput, .inr ⟨sens, w, h, samples, .inr rfl⟩⟩
  | pack sens w h samples =>
    obtain ⟨m, hpack, -⟩ := exec_image_eq_plan sens w h samples s
    exact ⟨m, hpack, .inr ⟨sens, w, h, samples, .inl rfl⟩⟩
  | setup b => exact ⟨s.frame, execSetup_eq_plan b s, .inl rfl⟩
  | setBrightness v => exact ⟨s.frame, ⟨_, _, _, rfl⟩, .inl rfl⟩
  | readMode => exact ⟨s.frame, ⟨_, _, _, rfl⟩, .inl rfl⟩

/-- Settles O22: a plan writes `TXQ`, `COMMIT` and `RESP` only, and every rule yields one. -/
theorem everyRequestCompletes : Obligations.EveryRequestCompletes := by
  intro i s
  obtain ⟨m, ⟨q, c, r, hexec⟩, hframe⟩ := exec_eq_plan i s
  exact ⟨q, c, r, m, hexec, hframe⟩

/-! ### Where a step stops -/

/-- A request's rule always answers a next state (R18). -/
theorem exec_next (i : Instr) (s : State) : ∃ t, exec i s = .next t := by
  obtain ⟨m, ⟨q, c, r, hexec⟩, -⟩ := exec_eq_plan i s
  exact ⟨_, hexec⟩

/-- The engine answers a next state, or it stops in `FAULT` (R25, R32). -/
theorem engine_next_or_faulted (s : State) :
    (∃ t, engine s = .next t) ∨ (engine s = .fault .faulted ∧ (s.fault = true ∨ s.phase = .faulted)) := by
  rcases engine_cases s with ⟨hstop, he⟩ | ⟨-, -, he⟩ | ⟨-, -, -, he⟩ | ⟨b, rest, -, -, -, hconsume⟩
  · exact .inr ⟨he, hstop⟩
  · exact .inl ⟨_, he⟩
  · exact .inl ⟨_, he⟩
  · rcases hconsume with ⟨-, he⟩ | ⟨x, -, he⟩ | ⟨i, tail, -, he⟩
    · exact .inl ⟨_, he⟩
    · exact .inl ⟨_, he⟩
    · exact .inl (he ▸ exec_next i _)

/-- Settles O36: reset is a next state, and without it the step is the engine's, which the sample of the reset input does
not change. -/
theorem stepStopsOnlyInFault : Obligations.StepStopsOnlyInFault := by
  intro s
  by_cases hreset : s.resetLine.head? = some true
  · obtain ⟨rest, hline⟩ := List.head?_eq_some_iff.mp hreset
    exact .inl ⟨_, step_of_reset s rest hline⟩
  · rw [step_of_no_reset s hreset]
    exact (engine_next_or_faulted s.pastSample).imp_right fun ⟨he, hstop⟩ => ⟨he, hreset, hstop⟩

end Sys2Proof.Machine
end

section
/-! PROOFS. The statements of 10_state.md: what the steps of the block do, the invariant that every step keeps, and the run of
one request. -/

namespace Sys2Proof

/-! ### A well-formed request's bytes -/

/-- The variable part of format FA comes back from its encoding (R60, R62). -/
theorem fieldsFA_encodeFA (payload rest : List Byte) (h : payloadFits payload = true) :
    fieldsFA (encodeFA payload ++ rest) = some (payload, rest) := by
  simp only [payloadFits, decide_eq_true_eq] at h
  simp [encodeFA, fieldsFA, takeBytes, Nat.mod_eq_of_lt h]

/-- The operands of format FI come back from their encoding (R60, R62). -/
theorem fieldsFI_encodeFI (sens : Byte) (w h : BitVec 16) (samples rest : List Byte) (hfit : samplesFit samples = true) :
    fieldsFI (encodeFI sens w h samples ++ rest) = some (⟨sens, w, h, samples⟩, rest) := by
  simp only [samplesFit, decide_eq_true_eq] at hfit
  simp [encodeFI, fieldsFI, takeBytes, Nat.mod_eq_of_lt hfit]

/-- Decoding an encoded request gives it back, whatever follows it (R59 to R63). -/
theorem decode_encode_append (i : Instr) (rest : List Byte) (h : i.wellFormed = true) :
    decode (encode i ++ rest) = .ok (i, rest) := by
  cases i with
  | sendArray payload => simp [encode, decode, decodeOperands, fieldsFA_encodeFA payload rest h]
  | putChar cp => simp [encode, decode, decodeOperands, fieldsFC]
  | putImage sens w hh samples => simp [encode, decode, decodeOperands, fieldsFI_encodeFI sens w hh samples rest h]
  | pack sens w hh samples => simp [encode, decode, decodeOperands, fieldsFI_encodeFI sens w hh samples rest h]
  | setTextXy col row => simp [encode, decode, decodeOperands, fieldsFXY]
  | sendCmd b | sendData b | setup b | setBrightness b => simp [encode, decode, decodeOperands, fieldsFB]
  | setHmode | setPmode | readMode => simp [encode, decode, decodeOperands]

theorem decode_encode (i : Instr) (h : i.wellFormed = true) : decode (encode i) = .ok (i, []) := by
  simpa using decode_encode_append i [] h

theorem ne_nil_of_decode_ok {q : List Byte} {i : Instr} {rest : List Byte} (h : decode q = .ok (i, rest)) : q ≠ [] := by
  rintro rfl
  cases h

/-- A proper beginning of a request is incomplete: its opcode is legal, and `ReqLen`, where the beginning tells it, is the
whole request's (R62). -/
theorem decode_incomplete_of_append {q r : List Byte} {i : Instr} (h : decode (q ++ r) = .ok (i, [])) (hr : r ≠ []) :
    decode q = .error .incomplete := by
  rcases decode_cases q with ⟨op, args, rfl, hop, -⟩ | ⟨-, -, hq⟩ | ⟨j, n, hlen, hle, -⟩
  · simp [decode, hop] at h
  · exact hq
  · have hlen' := reqLen_append q r n hlen
    rcases decode_cases (q ++ r) with ⟨op, args, -, -, he⟩ | ⟨-, -, he⟩ | ⟨k, n', hn', -, he⟩
    · rw [h] at he; cases he
    · rw [h] at he; cases he
    · obtain rfl : n = n' := Option.some.inj (hlen'.symm.trans hn')
      rw [h] at he
      have hdrop : (q ++ r).drop n = [] := by injection he with he; injection he with _ he; exact he.symm
      have : 0 < r.length := List.length_pos_of_ne_nil hr
      simp only [List.drop_eq_nil_iff, List.length_append] at hdrop
      omega

end Sys2Proof

namespace Sys2Proof.Machine

/-! ### What a request's rule may yield -/

/-- Request `i` may yield the plan `p`: its transactions are legal (R47), its response is one of R67 and R108, and only the
three mode requests carry a commit, each its own mode (R21). -/
structure Plan.LegalFor (p : Plan) (i : Instr) : Prop where
  txqLegal : ∀ x ∈ p.txq, legalTxn x = true
  respLegal : legalResponse p.resp = true
  commitOwn : p.commit = none ∨ (i = .setHmode ∧ p.commit = some .horizontal) ∨ (i = .setPmode ∧ p.commit = some .page) ∨
    (i = .setup 0x01 ∧ p.commit = some .horizontal) ∨ (i = .setup 0x02 ∧ p.commit = some .page)

theorem legalTxn_cmdTxn (c : Byte) : legalTxn (cmdTxn c) = true := by
  simp [legalTxn, cmdTxn]

theorem legalTxn_of_mem_cmdTxns (cs : List Byte) : ∀ x ∈ cs.map cmdTxn, legalTxn x = true :=
  List.forall_mem_map.mpr fun c _ => legalTxn_cmdTxn c

theorem legalTxn_data (q : List Byte) (h : q.length ≤ 31) : legalTxn (0x40 :: q) = true := by
  simp [legalTxn, Config.prefixData, Config.chunkMax, h]

theorem legalTxn_of_mem_chunks (bs x : List Byte) (h : x ∈ chunks bs) : legalTxn x = true := by
  obtain ⟨q, rfl, hq⟩ := mem_chunks bs x h
  exact legalTxn_data q hq

theorem legalTxn_of_mem_initTxns (x : List Byte) (h : x ∈ initTxns) : legalTxn x = true := by
  obtain ⟨k, rfl⟩ := List.mem_ofFn.mp h
  exact legalTxn_cmdTxn _

/-- No legal plan commits Unset: there is no switch to it (R83). -/
theorem Plan.LegalFor.commit_ne_unset {p : Plan} {i : Instr} (h : p.LegalFor i) : p.commit ≠ some .unset := by
  rcases h.commitOwn with hc | ⟨-, hc⟩ | ⟨-, hc⟩ | ⟨-, hc⟩ | ⟨-, hc⟩ <;> simp [hc]

@[simp] theorem legalResponse_ok (data : List Byte) : legalResponse ⟨0x00, data⟩ = true := rfl

@[simp] theorem legalResponse_raised (c : Condition) : legalResponse ⟨c.status, []⟩ = true := by cases c <;> rfl

/-- A plan with status OK that commits nothing is legal for every request. -/
theorem Plan.legalFor_of_ok {i : Instr} {q : List (List Byte)} (data : List Byte) (hq : ∀ x ∈ q, legalTxn x = true) :
    Plan.LegalFor ⟨q, none, ⟨0x00, data⟩⟩ i := ⟨hq, legalResponse_ok data, .inl rfl⟩

/-- A condition's plan is legal for every request (R109). -/
theorem Plan.legalFor_of_raised {i : Instr} (c : Condition) : Plan.LegalFor ⟨[], none, ⟨c.status, []⟩⟩ i :=
  ⟨by simp, legalResponse_raised c, .inl rfl⟩

/-- From every state with the frame `f`, in the mode `md` where the request is READ_MODE, the rule of `i` yields one legal
plan, on one frame. -/
def YieldsOnePlan (i : Instr) (f : Memory) (md : Mode) : Prop :=
  ∃ (m : Memory) (p : Plan), p.LegalFor i ∧ (f.wf → m.wf) ∧
    ∀ s : State, s.frame = f → (i = .readMode → s.mode = md) →
      exec i s = .next ({ s with frame := m }.plan p.txq p.commit p.resp)

/-- A rule that leaves FRAME alone yields one plan. -/
theorem YieldsOnePlan.of_plan {i : Instr} {f : Memory} {md : Mode} (p : Plan) (hp : p.LegalFor i)
    (h : ∀ s : State, (i = .readMode → s.mode = md) → exec i s = .next (s.plan p.txq p.commit p.resp)) :
    YieldsOnePlan i f md :=
  ⟨f, p, hp, id, fun s hf hm => by subst hf; exact h s hm⟩

theorem yieldsOnePlan_setTextXy (col row : Byte) (f : Memory) (md : Mode) : YieldsOnePlan (.setTextXy col row) f md := by
  rcases Nat.lt_or_ge row.toNat 80 with h | h
  · exact .of_plan ⟨_, none, _⟩
      (Plan.legalFor_of_ok _ (legalTxn_of_mem_cmdTxns [pageCmd row, colLo col, colHi col]))
      fun s _ => execSetTextXy_legal col row s h
  · exact .of_plan _ (Plan.legalFor_of_raised .badOperand) fun s _ => execSetTextXy_illegal col row s h

/-- SETUP's operand and the mode it asks for (R102). -/
theorem setupMode_eq_some (b : Byte) (m : Mode) (h : setupMode b = some m) :
    (b = 0x01 ∧ m = .horizontal) ∨ (b = 0x02 ∧ m = .page) := by
  unfold setupMode at h
  split at h
  · exact .inl ⟨‹_›, (Option.some.inj h).symm⟩
  · split at h
    · exact .inr ⟨‹_›, (Option.some.inj h).symm⟩
    · cases h

theorem yieldsOnePlan_setup (b : Byte) (f : Memory) (md : Mode) : YieldsOnePlan (.setup b) f md := by
  cases h : setupMode b with
  | none => exact .of_plan _ (Plan.legalFor_of_raised .badOperand) fun s _ => execSetup_reserved b s h
  | some m =>
    refine .of_plan ⟨initTxns ++ modeSwitchTxns m, some m, ⟨0x00, []⟩⟩ ⟨fun x hx => ?_, legalResponse_ok [], ?_⟩
      fun s _ => execSetup_mode b m s h
    · exact (List.mem_append.mp hx).elim (legalTxn_of_mem_initTxns x) (legalTxn_of_mem_cmdTxns (modeSwitchCmds m) x)
    · rcases setupMode_eq_some b m h with ⟨rfl, rfl⟩ | ⟨rfl, rfl⟩ <;> simp

/-- The image requests: the packed frame depends on the frame before and on no other part of the state (R92, R95). -/
theorem yieldsOnePlan_image (sens : Byte) (w h : BitVec 16) (samples : List Byte) (f : Memory) (md : Mode) :
    YieldsOnePlan (.pack sens w h samples) f md ∧ YieldsOnePlan (.putImage sens w h samples) f md := by
  cases hv : imageValid w.toNat h.toNat samples.length with
  | true =>
    obtain ⟨m, hm, hwf, -⟩ :=
      withPacked_valid sens w.toNat h.toNat samples f ((imageValid_iff _ _ _).mp hv).2.2.2
    constructor
    · refine ⟨m, ⟨[], none, ⟨statusOk, packedFrame sens w.toNat h.toNat samples⟩⟩,
        Plan.legalFor_of_ok _ (by simp), hwf, fun s hs _ => ?_⟩
      rw [exec, execPack, if_pos hv, hs, hm]
    · refine ⟨m, ⟨chunks (packedFrame sens w.toNat h.toNat samples), none, ⟨statusOk, []⟩⟩,
        Plan.legalFor_of_ok _ (legalTxn_of_mem_chunks _), hwf, fun s hs _ => ?_⟩
      rw [exec, execPutImage, if_pos hv, hs, hm]
      rfl
  | false =>
    exact ⟨.of_plan _ (Plan.legalFor_of_raised .invalidDimensions) fun s _ =>
        (execPack_invalid sens w h samples s hv).1,
      .of_plan _ (Plan.legalFor_of_raised .invalidDimensions) fun s _ =>
        (execPack_invalid sens w h samples s hv).2⟩

/-- What every rule yields, said once: one legal plan, on one frame, that depends on the frame before and, for READ_MODE
only, on the mode (R21, R22, R47, R108). -/
theorem exec_yieldsOnePlan (i : Instr) (f : Memory) (md : Mode) : YieldsOnePlan i f md := by
  cases i with
  | sendCmd b =>
    exact .of_plan ⟨[cmdTxn b], none, ⟨0x00, []⟩⟩
      (Plan.legalFor_of_ok _ (legalTxn_of_mem_cmdTxns [b])) fun _ _ => rfl
  | sendData b =>
    exact .of_plan ⟨[dataTxn b], none, ⟨0x00, []⟩⟩
      (Plan.legalFor_of_ok _ (List.forall_mem_singleton.mpr (legalTxn_data [b] (by simp)))) fun _ _ => rfl
  | sendArray payload =>
    exact .of_plan ⟨chunks payload, none, ⟨0x00, []⟩⟩
      (Plan.legalFor_of_ok _ (legalTxn_of_mem_chunks payload)) fun s _ => execSendArray_eq payload s
  | setHmode =>
    exact .of_plan ⟨modeSwitchTxns .horizontal, some .horizontal, ⟨0x00, []⟩⟩
      ⟨legalTxn_of_mem_cmdTxns _, legalResponse_ok _, by simp⟩ fun _ _ => rfl
  | setPmode =>
    exact .of_plan ⟨modeSwitchTxns .page, some .page, ⟨0x00, []⟩⟩
      ⟨legalTxn_of_mem_cmdTxns _, legalResponse_ok _, by simp⟩ fun _ _ => rfl
  | setTextXy col row => exact yieldsOnePlan_setTextXy col row f md
  | putChar cp =>
    exact .of_plan ⟨_, none, ⟨0x00, []⟩⟩
      (Plan.legalFor_of_ok _ (List.forall_mem_singleton.mpr (legalTxn_data _ (by simp)))) fun s _ => execPutChar_eq cp s
  | putImage sens w h samples => exact (yieldsOnePlan_image sens w h samples f md).2
  | pack sens w h samples => exact (yieldsOnePlan_image sens w h samples f md).1
  | setup b => exact yieldsOnePlan_setup b f md
  | setBrightness v =>
    exact .of_plan ⟨[cmdTxn Config.contrastCmd, cmdTxn v], none, ⟨0x00, []⟩⟩
      (Plan.legalFor_of_ok _ (legalTxn_of_mem_cmdTxns [Config.contrastCmd, v])) fun _ _ => rfl
  | readMode =>
    exact .of_plan ⟨[], none, ⟨0x00, [md.byte]⟩⟩
      (Plan.legalFor_of_ok _ (by simp)) fun s hm => by rw [← hm rfl]; rfl

/-- The inversion of a rule: what it writes, and that the plan is legal. -/
theorem exec_inv {i : Instr} {s t : State} (h : exec i s = .next t) :
    ∃ (m : Memory) (p : Plan), p.LegalFor i ∧ (s.frame.wf → m.wf) ∧
      t = { s with frame := m }.plan p.txq p.commit p.resp := by
  obtain ⟨m, p, hp, hwf, hexec⟩ := exec_yieldsOnePlan i s.frame s.mode
  rw [hexec s rfl fun _ => rfl] at h
  exact ⟨m, p, hp, hwf, (Host.Outcome.next.inj h).symm⟩

/-! ### `MODE`: who writes it and who reads it -/

/-- A step that changes `MODE` is reset, or `EXEC` writing the commit: the fetch of a byte and a rule leave it alone (R21). -/
theorem step_changes_mode {s t : State} (hstep : step s = .next t) (hne : t.mode ≠ s.mode) :
    s.resetLine.head? = some true ∨ (s.phase = .exec ∧ s.commit = some t.mode) := by
  refine or_iff_not_imp_left.mpr fun hreset => ?_
  rw [step_of_no_reset s hreset] at hstep
  rcases engine_cases s.pastSample with ⟨-, he⟩ | ⟨-, hphase, he⟩ | ⟨-, -, -, he⟩ | ⟨b, rest, -, -, -, hconsume⟩
  · rw [hstep] at he; cases he
  · obtain rfl := Host.Outcome.next.inj (hstep.symm.trans he)
    exact ⟨hphase, (execPhase_mode s.pastSample).resolve_left hne⟩
  · obtain rfl := Host.Outcome.next.inj (hstep.symm.trans he)
    exact absurd rfl hne
  · rcases hconsume with ⟨-, he⟩ | ⟨x, -, he⟩ | ⟨i, tail, -, he⟩
    · obtain rfl := Host.Outcome.next.inj (hstep.symm.trans he)
      exact absurd rfl hne
    · obtain rfl := Host.Outcome.next.inj (hstep.symm.trans he)
      exact absurd rfl hne
    · obtain ⟨m, p, -, -, rfl⟩ := exec_inv (he.symm.trans hstep)
      exact absurd rfl hne

/-- Settles O24: a plan never writes `MODE` itself, and the legal plans name the three requests that commit one. -/
theorem onlyModeSwitchesWriteMode : Obligations.OnlyModeSwitchesWriteMode := by
  refine ⟨fun i s t h => ?_, fun s t => step_changes_mode⟩
  obtain ⟨m, p, hp, -, rfl⟩ := exec_inv h
  exact ⟨rfl, hp.commitOwn⟩

/-- Settles O25: the one plan of the rule serves the state in both modes. -/
theorem onlyReadModeReadsMode : Obligations.OnlyReadModeReadsMode := by
  intro i s m hi
  obtain ⟨f, p, -, -, hexec⟩ := exec_yieldsOnePlan i s.frame s.mode
  exact ⟨_, hexec s rfl fun h => absurd h hi, hexec { s with mode := m } rfl fun h => absurd h hi⟩

/-! ### The steps that consume request bytes -/

/-- The bytes held of the request being received; between requests there are none (R31). -/
def State.held (s : State) : List Byte := if s.phase = .idle then [] else s.cur

theorem State.held_of_idle {s : State} (h : s.phase = .idle) : s.held = [] := if_pos h

theorem State.held_of_recv {s : State} (h : s.phase = .recv) : s.held = s.cur := if_neg (by simp [h])

theorem State.held_append_of_idle {s : State} (h : s.phase = .idle) (q : List Byte) : s.held ++ q = q := by
  rw [State.held_of_idle h, List.nil_append]

theorem State.curWith_eq_held (s : State) (b : Byte) : s.curWith b = s.held ++ [b] := by
  unfold State.curWith State.held
  split <;> rfl

section
variable {s : State} {b : Byte} {rest : List Byte}

/-- The step on a byte that completes a request, between requests or inside one (R32). -/
theorem step_complete {i : Instr} (hreset : s.resetLine.head? ≠ some true) (hfault : s.fault = false)
    (hphase : s.phase = .idle ∨ s.phase = .recv) (hreq : s.req = b :: rest) (hd : decode (s.held ++ [b]) = .ok (i, [])) :
    step s = exec i { s with resetLine := s.resetLine.tail, req := rest, rp := s.rp + 1, cur := s.held ++ [b],
                             phase := .exec } := by
  rw [← s.curWith_eq_held] at hd ⊢
  rw [step_of_no_reset s hreset]
  exact engine_complete s.pastSample b rest [] i hfault hphase hreq hd

/-- The step on a byte after which the request is incomplete, between requests or inside one (R32). -/
theorem step_incomplete (hreset : s.resetLine.head? ≠ some true) (hfault : s.fault = false)
    (hphase : s.phase = .idle ∨ s.phase = .recv) (hreq : s.req = b :: rest)
    (hd : decode (s.held ++ [b]) = .error .incomplete) :
    step s = .next { s with resetLine := s.resetLine.tail, req := rest, rp := s.rp + 1, cur := s.held ++ [b],
                            phase := .recv } := by
  rw [← s.curWith_eq_held] at hd ⊢
  rw [step_of_no_reset s hreset]
  exact engine_incomplete s.pastSample b rest hfault hphase hreq hd

end

/-- Settles O26: in IDLE no byte is held, in RECV the bytes of `CUR` are. -/
theorem stepRunsTheDecodedRequest : Obligations.StepRunsTheDecodedRequest := by
  intro s b rest i hreset hfault hreq
  constructor
  · rintro ⟨hphase, hd⟩
    rw [← State.held_append_of_idle hphase [b]] at hd ⊢
    exact step_complete hreset hfault (.inl hphase) hreq hd
  · rintro ⟨hphase, hd⟩
    rw [← State.held_of_recv hphase] at hd ⊢
    exact step_complete hreset hfault (.inr hphase) hreq hd

/-- Settles O29: as O26, with the byte kept in `CUR`. -/
theorem partOfARequestIsKept : Obligations.PartOfARequestIsKept := by
  intro s b rest hreset hfault hreq
  constructor
  · rintro ⟨hphase, hd⟩
    rw [← State.held_append_of_idle hphase [b]] at hd ⊢
    exact step_incomplete hreset hfault (.inl hphase) hreq hd
  · rintro ⟨hphase, hd⟩
    rw [← State.held_of_recv hphase] at hd ⊢
    exact step_incomplete hreset hfault (.inr hphase) hreq hd

/-! ### The request placed before the block -/

theorem withRequest_phase_cases (s : State) (q : List Byte) :
    (s.withRequest q).phase = .idle ∨ (s.withRequest q).phase = .recv := by
  rw [State.withRequest_phase]
  split
  · exact .inl rfl
  · exact .inr rfl

/-- The bytes held after placing a request are all of it but the last. -/
theorem withRequest_held (s : State) (q : List Byte) : (s.withRequest q).held = q.dropLast := by
  rcases Nat.lt_or_ge 1 q.length with hlen | hlen
  · exact State.held_of_recv (if_neg (Nat.not_le.mpr hlen))
  · rw [State.held_of_idle (if_pos hlen)]
    exact (List.eq_nil_of_length_eq_zero (by rw [List.length_dropLast]; omega)).symm

/-- Settles O27: the last byte completes the placed request, and its encoding decodes to it. -/
theorem stepRunsThePlacedRequest : Obligations.StepRunsThePlacedRequest := by
  intro i s hwf
  have hd := decode_encode i hwf
  obtain ⟨q, b, hq⟩ := (List.eq_nil_or_concat' (encode i)).resolve_left (ne_nil_of_decode_ok hd)
  rw [hq] at hd ⊢
  have hheld : (s.withRequest (q ++ [b])).held = q := by simp [withRequest_held]
  have := step_complete (s := s.withRequest (q ++ [b])) (b := b) (rest := s.req) (by simp) rfl
    (withRequest_phase_cases s _) (by simp) (by rwa [hheld])
  rw [this, hheld]
  simp [State.withRequest, Nat.add_assoc]

/-! ### The `EXEC` clauses -/

theorem step_exec {s : State} (hreset : s.resetLine.head? ≠ some true) (hfault : s.fault = false) (hphase : s.phase = .exec) :
    step s = .next s.pastSample.execPhase := by
  rw [step_of_no_reset s hreset]
  exact engine_exec s.pastSample hfault hphase

theorem answerEvents_eq_ite (p : List Byte) (r : Answer) :
    answerEvents p r = if r = .failure then [.answer p .failure, .txFail p] else [.answer p .success] := by
  cases r <;> rfl

/-- Settles O30: one case of `execPhase` for each of the clauses, the sample of the reset input taken before. -/
theorem runningRequestSteps : Obligations.RunningRequestSteps := by
  intro s hreset hfault hphase
  simp only [step_exec hreset hfault hphase, ← answerEvents_eq_ite]
  refine ⟨fun p q htxq => ⟨fun htr => ?_, fun as htr => ?_, fun r as htr hq => ?_, fun r as x htr hq hresp => ?_⟩,
    fun x htxq hin hresp => ?_⟩
  · rw [execPhase_silent s.pastSample p q htxq htr]; rfl
  · rw [execPhase_wait s.pastSample p q as htxq htr]; rfl
  · rw [execPhase_more s.pastSample p q r as htxq hq htr]; rfl
  · subst hq
    rw [execPhase_last s.pastSample p r as htxq htr, State.pastSample_resp, hresp]; rfl
  · rw [execPhase_finish s.pastSample htxq hin, State.pastSample_resp, hresp]; rfl

/-! ### The bus after a trace -/

theorem busAfter_append {tr evs : List Event} {b : BusState} (h : busAfter tr = some b) :
    busAfter (tr ++ evs) = evs.foldlM BusState.after b := by
  rw [busAfter, List.foldlM_append, ← busAfter, h]
  rfl

theorem State.busState_quiet {s : State} (h : s.inflight = false) : s.busState = .quiet := by
  simp [State.busState, h]

theorem State.busState_waiting {s : State} {p : List Byte} {q : List (List Byte)} (h : s.inflight = true)
    (htxq : s.txq = p :: q) : s.busState = .waiting p := by
  simp [State.busState, h, htxq]

theorem after_issue {p : List Byte} (h : legalTxn p = true) :
    BusState.after .quiet (.issue Config.devAddr p) = some (.waiting p) := if_pos ⟨rfl, h⟩

theorem after_respond {r : Response} (h : legalResponse r = true) : BusState.after .quiet (.respond r) = some .quiet := if_pos h

theorem foldlM_after_answerEvents (p : List Byte) (r : Answer) :
    (answerEvents p r).foldlM BusState.after (.waiting p) = some .quiet := by
  cases r <;> simp [answerEvents, BusState.after]

/-! ### Steps that leave the sequencer alone -/

/-- The invariant does not speak of the input channels: the host, the transport and the sample of the reset input keep it. -/
theorem Inv.setChannels {s : State} (h : Inv s) (req : List Byte) (polls : List (Option Answer)) (line : List Bool) :
    Inv { s with req := req, transport := polls, resetLine := line } := { h with }

theorem Inv.pastSample {s : State} (h : Inv s) : Inv s.pastSample := h.setChannels s.req s.transport s.resetLine.tail

/-! ### Reset -/

theorem foldlM_after_abandoned {s : State} (h : Inv s) : s.abandoned.foldlM BusState.after s.busState = some .quiet := by
  cases hin : s.inflight with
  | false => simp [State.abandoned, State.busState_quiet, hin]
  | true =>
    obtain ⟨p, q, htxq⟩ := List.exists_cons_of_ne_nil (h.inflightTxq hin)
    simp [State.abandoned, State.busState_waiting hin htxq, hin, htxq, BusState.after]

/-- The registers that only a running request holds are empty (R31, R38). -/
def State.RegistersEmpty (s : State) : Prop :=
  s.txq = [] ∧ s.inflight = false ∧ s.commit = none ∧ s.resp = none ∧ s.frame = []

/-- What is left of the invariant where no request runs. -/
theorem inv_of_not_exec {s : State} (hdev : s.devAddr = Config.devAddr) (hfault : s.fault = true ↔ s.phase = .faulted)
    (hexec : s.phase ≠ .exec) (hempty : s.RegistersEmpty) (hidle : s.phase = .idle → s.cur = [])
    (hrecv : s.phase = .recv → s.cur ≠ [] ∧ decode s.cur = .error .incomplete) (hrp : s.cur.length ≤ s.rp)
    (hbus : busAfter s.trace = some .quiet) : Inv s := by
  obtain ⟨htxq, hin, hcommit, hresp, hframe⟩ := hempty
  exact {
    faultPhase := hfault
    devAddr := hdev
    quiet := fun _ => ⟨htxq, hin, hcommit, hresp, hframe⟩
    idleCur := hidle
    recvCur := hrecv
    execCur := fun h => absurd h hexec
    inflightTxq := by simp [hin]
    txqLegal := by simp [htxq]
    respLegal := by simp [hresp]
    commitMode := by simp [hcommit]
    frameWf := by simp [hframe]
    rpCur := hrp
    traceBus := by rw [hbus, State.busState_quiet hin] }

theorem inv_reset : Inv State.reset :=
  inv_of_not_exec rfl (by decide) (by decide) ⟨rfl, rfl, rfl, rfl, rfl⟩ (fun _ => rfl) (by decide) (Nat.le_refl 0) rfl

theorem Inv.applyReset {s : State} (h : Inv s) : Inv s.applyReset :=
  inv_of_not_exec rfl (by simp) (by simp) ⟨rfl, rfl, rfl, rfl, rfl⟩ (fun _ => rfl) (by simp) (Nat.zero_le _)
    ((busAfter_append h.traceBus).trans (foldlM_after_abandoned h))

/-! ### The `EXEC` clauses -/

/-- Only a running request has something in flight (R31). -/
theorem Inv.exec_of_txq {s : State} (h : Inv s) (htxq : s.txq ≠ []) : s.phase = .exec :=
  not_not.mp fun hphase => htxq (h.quiet hphase).1

theorem Inv.fault_eq_false {s : State} (h : Inv s) (hphase : s.phase ≠ .faulted) : s.fault = false :=
  Bool.eq_false_iff.mpr fun hfault => hphase (h.faultPhase.mp hfault)

/-- The issue event takes the bus from what the sequencer says to the head of `TXQ` in flight (R41, R52). -/
theorem foldlM_after_issueEvents {s : State} (h : Inv s) {p : List Byte} {q : List (List Byte)} (htxq : s.txq = p :: q) :
    (s.issueEvents p).foldlM BusState.after s.busState = some (.waiting p) := by
  cases hin : s.inflight with
  | true => simp [State.issueEvents, hin, State.busState_waiting hin htxq]
  | false =>
    have hlegal : legalTxn p = true := h.txqLegal p (by simp [htxq])
    simp [State.issueEvents, hin, State.busState_quiet hin, h.devAddr, after_issue hlegal]

theorem Inv.issue {s : State} (h : Inv s) : Inv s.issue := by
  cases htxq : s.txq with
  | nil => rwa [issue_nil s htxq]
  | cons p q =>
    have hexec : s.phase = .exec := h.exec_of_txq (by simp [htxq])
    rw [issue_cons s p q htxq]
    exact { h with
      quiet := fun hphase => absurd hexec hphase
      inflightTxq := fun _ => by simp [htxq]
      traceBus := by
        simpa [State.busState, htxq] using (busAfter_append h.traceBus).trans (foldlM_after_issueEvents h htxq) }

/-- What `poll` does to a transaction in flight: nothing, a wait, or an answer that frees it (R32, R41). -/
theorem poll_cases (s : State) :
    s.poll = s ∨ (∃ as, s.poll = { s with transport := as }) ∨
    ∃ r as, s.inflight = true ∧ s.poll =
      { s with inflight := false, txq := s.txq.tail, transport := as,
               trace := s.trace ++ (s.txq.take 1).flatMap (answerEvents · r) } := by
  unfold State.poll
  split
  · exact .inr (.inr ⟨_, _, ‹_›, rfl⟩)
  · exact .inr (.inl ⟨_, rfl⟩)
  · exact .inl rfl

theorem Inv.poll {s : State} (h : Inv s) : Inv s.poll := by
  rcases poll_cases s with he | ⟨as, he⟩ | ⟨r, as, hin, he⟩
  · rwa [he]
  · rw [he]
    exact h.setChannels s.req as s.resetLine
  · obtain ⟨p, q, htxq⟩ := List.exists_cons_of_ne_nil (h.inflightTxq hin)
    have hexec : s.phase = .exec := h.exec_of_txq (by simp [htxq])
    rw [he]
    exact { h with
      quiet := fun hphase => absurd hexec hphase
      inflightTxq := by simp
      txqLegal := fun x hx => h.txqLegal x (List.mem_of_mem_tail hx)
      traceBus := by
        rw [State.busState_quiet rfl, busAfter_append h.traceBus, State.busState_waiting hin htxq, htxq]
        simpa using foldlM_after_answerEvents p r }

theorem finish_ends {s : State} (hin : s.inflight = false) (htxq : s.txq = []) :
    s.finish =
      { s with mode := s.commit.getD s.mode, trace := s.trace ++ s.resp.toList.map .respond, commit := none, resp := none,
               cur := [], frame := [], phase := .idle } := by
  simp [State.finish, hin, htxq]

theorem finish_goes_on {s : State} (h : s.inflight = true ∨ s.txq ≠ []) : s.finish = s := by
  unfold State.finish
  split
  · simp_all
  · rfl

theorem foldlM_after_respond {s : State} (h : Inv s) (hin : s.inflight = false) :
    (s.resp.toList.map Event.respond).foldlM BusState.after s.busState = some .quiet := by
  rw [State.busState_quiet hin]
  cases hresp : s.resp with
  | none => rfl
  | some r => simp [after_respond (h.respLegal r hresp)]

theorem Inv.finish {s : State} (h : Inv s) (hexec : s.phase = .exec) : Inv s.finish := by
  by_cases hgo : s.inflight = true ∨ s.txq ≠ []
  · rwa [finish_goes_on hgo]
  · obtain ⟨hin, htxq⟩ : s.inflight = false ∧ s.txq = [] := by simpa using hgo
    have hfault : s.fault = false := h.fault_eq_false (by simp [hexec])
    rw [finish_ends hin htxq]
    exact inv_of_not_exec h.devAddr (by simp [hfault]) (by simp) ⟨htxq, hin, rfl, rfl, rfl⟩ (fun _ => rfl) (by simp)
      (Nat.zero_le _) ((busAfter_append h.traceBus).trans (foldlM_after_respond h hin))

theorem Inv.execPhase {s : State} (h : Inv s) (hexec : s.phase = .exec) : Inv s.execPhase :=
  h.issue.poll.finish (by simp [hexec])

/-! ### The steps that consume request bytes -/

/-- The bytes held do not exceed `RP` (R26). -/
theorem Inv.held_length_le {s : State} (h : Inv s) : s.held.length ≤ s.rp := by
  unfold State.held
  split
  · exact Nat.zero_le _
  · exact h.rpCur

/-- A byte more makes the bytes held an illegal opcode, the beginning of a request, or exactly a request (R62, R64). -/
theorem Inv.decode_curWith {s : State} (h : Inv s) (hphase : s.phase = .idle ∨ s.phase = .recv) (b : Byte) :
    decode (s.curWith b) = .error (.illegalOpcode b) ∨ decode (s.curWith b) = .error .incomplete ∨
      ∃ i, decode (s.curWith b) = .ok (i, []) := by
  rw [s.curWith_eq_held]
  rcases hphase with hphase | hphase
  · rw [State.held_append_of_idle hphase]
    exact decode_singleton b
  · rw [State.held_of_recv hphase]
    exact .inr (decode_snoc s.cur b (h.recvCur hphase).1 (h.recvCur hphase).2)

section
variable {s : State} (h : Inv s) (hphase : s.phase = .idle ∨ s.phase = .recv) (b : Byte) (rest : List Byte)
include h

theorem Inv.consume_cur_length_le : (s.consume b rest).cur.length ≤ (s.consume b rest).rp := by
  have := h.held_length_le
  simp only [State.consume, s.curWith_eq_held, List.length_append, List.length_singleton]
  omega

include hphase

theorem Inv.registersEmpty : s.RegistersEmpty := h.quiet (by rcases hphase with hp | hp <;> simp [hp])

theorem Inv.fault_of_receiving : s.fault = false :=
  h.fault_eq_false (by rcases hphase with hp | hp <;> simp [hp])

theorem Inv.traceBus_quiet : busAfter s.trace = some .quiet := by
  obtain ⟨-, hin, -⟩ := h.registersEmpty hphase
  rw [h.traceBus, State.busState_quiet hin]

/-- A byte after which the request is incomplete keeps the invariant. -/
theorem Inv.consume_incomplete (hd : decode (s.curWith b) = .error .incomplete) :
    Inv { s.consume b rest with phase := .recv } := by
  have hcur : s.curWith b ≠ [] := by simp [s.curWith_eq_held]
  exact inv_of_not_exec h.devAddr (by simp [State.consume, h.fault_of_receiving hphase]) (by simp) (h.registersEmpty hphase)
    (by simp) (fun _ => ⟨hcur, hd⟩) (h.consume_cur_length_le b rest) (h.traceBus_quiet hphase)

/-- An illegal opcode keeps the invariant: it enters `FAULT`, and its response comes while the bus is quiet (R112). -/
theorem Inv.consume_illegal : Inv (s.consume b rest).enterFault :=
  inv_of_not_exec h.devAddr (by simp) (by simp) (h.registersEmpty hphase) (by simp) (by simp)
    (h.consume_cur_length_le b rest) (busAfter_append (h.traceBus_quiet hphase))

/-- The byte that completes a request keeps the invariant: the request runs, and its plan is legal (R31, R32). -/
theorem Inv.consume_complete {i : Instr} {t : State} (hd : decode (s.curWith b) = .ok (i, []))
    (hexec : exec i { s.consume b rest with phase := .exec } = .next t) : Inv t := by
  obtain ⟨m, p, hp, hwf, rfl⟩ := exec_inv hexec
  obtain ⟨-, hin, -, -, -⟩ := h.registersEmpty hphase
  exact {
    faultPhase := by simp [State.consume, h.fault_of_receiving hphase]
    devAddr := h.devAddr
    quiet := fun hne => absurd rfl hne
    idleCur := by simp
    recvCur := by simp
    execCur := fun _ => ⟨⟨i, hd⟩, by simp⟩
    inflightTxq := by simp [State.consume, hin]
    txqLegal := hp.txqLegal
    respLegal := by simpa using hp.respLegal
    commitMode := hp.commit_ne_unset
    frameWf := hwf h.frameWf
    rpCur := h.consume_cur_length_le b rest
    traceBus := by simpa [State.busState, State.consume, hin] using h.traceBus_quiet hphase }

end

/-! ### The invariant of the machine -/

/-- The engine's step keeps the invariant: one lemma for each thing it can do. -/
theorem Inv.engine {s t : State} (h : Inv s) (hstep : engine s = .next t) : Inv t := by
  rcases engine_cases s with ⟨-, he⟩ | ⟨-, hexec, he⟩ | ⟨-, -, -, he⟩ | ⟨b, rest, -, hphase, -, hconsume⟩
  · rw [hstep] at he; cases he
  · obtain rfl := Host.Outcome.next.inj (hstep.symm.trans he)
    exact h.execPhase hexec
  · obtain rfl := Host.Outcome.next.inj (hstep.symm.trans he)
    exact h
  · rcases hconsume with ⟨hd, he⟩ | ⟨x, -, he⟩ | ⟨i, tail, hd, he⟩
    · obtain rfl := Host.Outcome.next.inj (hstep.symm.trans he)
      exact h.consume_incomplete hphase b rest hd
    · obtain rfl := Host.Outcome.next.inj (hstep.symm.trans he)
      exact h.consume_illegal hphase b rest
    · obtain rfl : tail = [] := by
        rcases h.decode_curWith hphase b with hd' | hd' | ⟨j, hd'⟩ <;> rw [hd] at hd' <;> cases hd'
        rfl
      exact h.consume_complete hphase b rest hd (he.symm.trans hstep)

/-- Settles O41: reset meets the invariant from every state, and without it the step is the engine's. -/
theorem stepKeepsTheInvariant : Obligations.StepKeepsTheInvariant := by
  intro s t h hstep
  by_cases hreset : s.resetLine.head? = some true
  · obtain ⟨rest, hline⟩ := List.head?_eq_some_iff.mp hreset
    obtain rfl := Host.Outcome.next.inj ((step_of_reset s rest hline).symm.trans hstep)
    exact (h.setChannels s.req s.transport rest).applyReset
  · rw [step_of_no_reset s hreset] at hstep
    exact h.pastSample.engine hstep

/-- Settles O42: the engine's step is O41's, and the host's writes and the transport's answers are on the input channels. -/
theorem agentStepKeepsTheInvariant : Obligations.AgentStepKeepsTheInvariant := by
  intro s t h hstep
  cases hstep with
  | engine t hstep => exact stepKeepsTheInvariant s t h hstep
  | hostWrites bytes => exact h.setChannels (s.req ++ bytes) s.transport s.resetLine
  | hostResets => exact h.applyReset
  | transportSettles polls => exact h.setChannels s.req (s.transport ++ polls) s.resetLine

/-- Settles O43, by induction on the interleaving. -/
theorem reachableStatesAreGood : Obligations.ReachableStatesAreGood := by
  intro s hs
  induction hs with
  | reset => exact inv_reset
  | step s t _ hstep ih => exact agentStepKeepsTheInvariant s t ih hstep

/-! ### A request offered to the block is received and its rule is run -/

/-- The bytes of a request, the ones held of it counted, are consumed one a step, and the last step is its rule (R26, R32). -/
theorem run_receives {i : Instr} {rest : List Byte} {t : State} (r : List Byte) {s : State}
    (hphase : s.phase = .idle ∨ s.phase = .recv) (hfault : s.fault = false) (hline : s.resetLine = [])
    (hreq : s.req = r ++ rest) (hr : r ≠ []) (hd : decode (s.held ++ r) = .ok (i, []))
    (hexec : exec i { s with req := rest, rp := s.rp + r.length, cur := s.held ++ r, phase := .exec } = .next t) :
    run r.length s = .next t := by
  induction r generalizing s with
  | nil => exact absurd rfl hr
  | cons b r ih =>
    have hreset : s.resetLine.head? ≠ some true := by simp [hline]
    have htail : s.resetLine.tail = s.resetLine := by simp [hline]
    cases r with
    | nil =>
      have hstep := step_complete hreset hfault hphase hreq hd
      rw [htail] at hstep
      exact run_succ 0 s t (hstep.trans hexec)
    | cons c r =>
      have hsnoc : s.held ++ b :: c :: r = (s.held ++ [b]) ++ c :: r := by simp
      rw [hsnoc] at hd hexec
      have hstep := step_incomplete hreset hfault hphase hreq (decode_incomplete_of_append hd (List.cons_ne_nil c r))
      rw [htail] at hstep
      refine (run_succ _ s _ hstep).trans (ih (.inr rfl) hfault hline rfl (List.cons_ne_nil c r) hd ?_)
      rw [← hexec]
      simp only [State.held_of_recv, List.length_cons, Nat.add_assoc, Nat.add_comm 1]

/-! ### The transport's polls -/

theorem getLast?_ne_none_of_cons {x : Option Answer} {polls : List (Option Answer)}
    (h : (x :: polls).getLast? ≠ some none) : polls.getLast? ≠ some none := by
  cases polls with
  | nil => simp
  | cons y polls => rwa [List.getLast?_cons_cons] at h

/-- Polls that hold no answer and do not end in a wait are no polls. -/
theorem polls_eq_nil {polls : List (Option Answer)} (hnone : polls.filterMap id = []) (hlast : polls.getLast? ≠ some none) :
    polls = [] := by
  induction polls with
  | nil => rfl
  | cons x polls ih =>
    cases x with
    | none =>
      obtain rfl := ih hnone (getLast?_ne_none_of_cons hlast)
      exact absurd rfl hlast
    | some a => cases hnone

/-! ### A running request is served -/

/-- A request runs, `RESP` holds its response `r`, and reset is not asserted. -/
structure State.Running (s : State) (r : Response) : Prop where
  phase : s.phase = .exec
  fault : s.fault = false
  line : s.resetLine = []
  resp : s.resp = some r

/-- The head `p` of `TXQ` is in flight, and the transport has had no answer yet; its coming polls are `as` (R32). -/
def State.waiting (s : State) (p : List Byte) (as : List (Option Answer)) : State :=
  { s with inflight := true, transport := as, trace := s.trace ++ s.issueEvents p }

/-- The head `p` of `TXQ` is answered with `a`, and `q` is left; the transport's coming polls are `as` (R32). -/
def State.answered (s : State) (p : List Byte) (a : Answer) (q : List (List Byte)) (as : List (Option Answer)) : State :=
  { s with inflight := false, txq := q, transport := as, trace := s.trace ++ s.issueEvents p ++ answerEvents p a }

/-- The running request has ended with the response `r`, having shown `evs`; the transport's coming polls are `as` (R36, R38,
R54). -/
def State.ended (s : State) (r : Response) (evs : List Event) (as : List (Option Answer)) : State :=
  { s with txq := [], inflight := false, transport := as, mode := s.commit.getD s.mode, commit := none, resp := none,
           cur := [], frame := [], phase := .idle, trace := s.trace ++ evs ++ [.respond r] }

/-- What the transactions of `TXQ` will show when the transport gives the answers in turn; the head's issue event is shown
already where it is in flight (R52, R111). -/
def State.eventsToCome (s : State) (answers : List Answer) : List Event :=
  ((s.txq.zip answers).flatMap fun x => .issue s.devAddr x.1 :: answerEvents x.1 x.2).drop (if s.inflight then 1 else 0)

section
variable {s : State} {r : Response} {p : List Byte} {q : List (List Byte)}

/-- A wait shows the issue event of the head, if that was still to come, and nothing else. -/
theorem waiting_ended (htxq : s.txq = p :: q) (a : Answer) (answers : List Answer) (as more : List (Option Answer)) :
    (s.waiting p as).ended r ((s.waiting p as).eventsToCome (a :: answers)) more =
      s.ended r (s.eventsToCome (a :: answers)) more := by
  cases hin : s.inflight <;> simp [State.waiting, State.ended, State.eventsToCome, State.issueEvents, htxq, hin]

/-- An answer shows the head's events that were still to come. -/
theorem answered_ended (htxq : s.txq = p :: q) (a : Answer) (answers : List Answer) (as more : List (Option Answer)) :
    (s.answered p a q as).ended r ((s.answered p a q as).eventsToCome answers) more =
      s.ended r (s.eventsToCome (a :: answers)) more := by
  cases hin : s.inflight <;> simp [State.answered, State.ended, State.eventsToCome, State.issueEvents, htxq, hin]

theorem State.Running.waiting (h : s.Running r) (as : List (Option Answer)) : (s.waiting p as).Running r :=
  ⟨h.phase, h.fault, h.line, h.resp⟩

theorem State.Running.answered (h : s.Running r) (a : Answer) (as : List (Option Answer)) : (s.answered p a q as).Running r :=
  ⟨h.phase, h.fault, h.line, h.resp⟩

theorem State.Running.step (h : s.Running r) : step s = .next s.execPhase := by
  have hpast : s.pastSample = s := by
    unfold State.pastSample
    rw [h.line, List.tail_nil, ← h.line]
  rw [step_exec (by simp [h.line]) h.fault h.phase, hpast]

/-- With no transaction the request ends in one step (R54). -/
theorem run_ends (h : s.Running r) (htxq : s.txq = []) (hin : s.inflight = false) :
    run 1 s = .next (s.ended r [] s.transport) := by
  rw [run_succ 0 s _ h.step, run_zero, execPhase_finish s htxq hin, h.resp]
  simp [State.ended, htxq, hin]

end

/-- The transactions of a running request are served, one step for each poll of the transport, and the last answer ends the
request (R52 to R54, R110, R111). -/
theorem run_serves {r : Response} {more : List (Option Answer)} (polls : List (Option Answer)) {s : State}
    (h : s.Running r) (htxq : s.txq ≠ []) (hlen : (polls.filterMap id).length = s.txq.length)
    (hlast : polls.getLast? ≠ some none) (htr : s.transport = polls ++ more) :
    run polls.length s = .next (s.ended r (s.eventsToCome (polls.filterMap id)) more) := by
  obtain ⟨p, q, hq⟩ := List.exists_cons_of_ne_nil htxq
  induction polls generalizing s p q with
  | nil => simp [hq] at hlen
  | cons x polls ih =>
    have hlast' := getLast?_ne_none_of_cons hlast
    cases x with
    | none =>
      have hstep : step s = .next (s.waiting p (polls ++ more)) :=
        h.step.trans (congrArg _ (execPhase_wait s p q (polls ++ more) hq htr))
      obtain ⟨a, answers, hanswers⟩ := List.exists_cons_of_length_eq_add_one (hlen.trans (congrArg List.length hq))
      rw [hanswers, ← waiting_ended hq a answers (polls ++ more), ← hanswers]
      exact (run_succ _ s _ hstep).trans (ih (h.waiting _) htxq hlen hlast' rfl p q hq)
    | some a =>
      change run (polls.length + 1) s = .next (s.ended r (s.eventsToCome (a :: polls.filterMap id)) more)
      cases q with
      | nil =>
        obtain rfl : polls = [] := polls_eq_nil (by simpa [hq] using hlen) hlast'
        rw [run_succ _ s _ h.step, ← answered_ended hq a _ more, execPhase_last s p a more hq htr, h.resp]
        simp [State.ended, State.answered, State.eventsToCome]
      | cons p' q =>
        have hstep : step s = .next (s.answered p a (p' :: q) (polls ++ more)) :=
          h.step.trans (congrArg _ (execPhase_more s p _ a (polls ++ more) hq (List.cons_ne_nil p' q) htr))
        rw [← answered_ended hq a _ (polls ++ more)]
        exact (run_succ _ s _ hstep).trans
          (ih (h.answered a _) (List.cons_ne_nil p' q) (Nat.succ.inj (hlen.trans (congrArg List.length hq))) hlast' rfl p' q rfl)

/-- The whole service of a request whose rule has just run, with no transaction or with some: one step for each poll, at least
one. -/
theorem run_serves_request {r : Response} {more : List (Option Answer)} (polls : List (Option Answer)) {s : State}
    (h : s.Running r) (hin : s.inflight = false) (hlen : (polls.filterMap id).length = s.txq.length)
    (hlast : polls.getLast? ≠ some none) (htr : s.transport = polls ++ more) :
    run (max 1 polls.length) s = .next (s.ended r (s.eventsToCome (polls.filterMap id)) more) := by
  by_cases htxq : s.txq = []
  · obtain rfl : polls = [] := polls_eq_nil (by simpa [htxq] using hlen) hlast
    rw [show s.eventsToCome ([].filterMap id) = [] by simp [State.eventsToCome], ← show s.transport = more from htr]
    exact run_ends h htxq hin
  · have hpos : 1 ≤ polls.length :=
      (List.length_pos_iff.mpr htxq).trans_le (hlen.symm.trans_le (List.length_filterMap_le id polls))
    rw [max_eq_right hpos]
    exact run_serves polls h htxq hlen hlast htr

/-- Settles O47: the bytes are received, the rule's one plan is made, and its transactions are served. -/
theorem requestRunsToItsResponse : Obligations.RequestRunsToItsResponse := by
  intro i s rest hwf hphase hfault hin hline hreq
  have hd := decode_encode i hwf
  obtain ⟨m, p, -, -, hyields⟩ := exec_yieldsOnePlan i s.frame s.mode
  have hexec := hyields { s with req := rest, rp := s.rp + (encode i).length, cur := encode i, phase := .exec } rfl fun _ => rfl
  refine ⟨_, p.resp, hexec, rfl, fun answers polls more hlen hpolls hlast htr => ?_⟩
  subst hpolls
  have hreceive := run_receives (encode i) (.inl hphase) hfault hline hreq (ne_nil_of_decode_ok hd)
    (by rwa [State.held_append_of_idle hphase]) (by rwa [State.held_append_of_idle hphase])
  rw [run_add _ _ _ _ hreceive]
  refine Eq.trans (run_serves_request polls ⟨rfl, hfault, hline, rfl⟩ hin hlen hlast htr) ?_
  simp [State.ended, State.eventsToCome, hin, hphase]

end Sys2Proof.Machine
end

section
/-! PROOFS. The statements of 20_memory.md: the request stream and its buffers, `FRAME`, the transactions on the bus, and the
run of a stream of requests. -/

namespace Sys2Proof.Machine

/-! ### The plan of a request, whatever the frame -/

/-- The response clauses of request `i`'s plan: status OK, or a condition with no data, no transaction and no commit; only
READ_MODE and PACK answer data (R67, R108, R109). -/
structure Plan.RespondsFor (p : Plan) (i : Instr) : Prop where
  status : p.resp.status = 0x00 ∨
    ((p.resp.status = 0x01 ∨ p.resp.status = 0x02) ∧ p.resp.data = [] ∧ p.txq = [] ∧ p.commit = none)
  data : p.resp.data ≠ [] → i = .readMode ∨ ∃ sens w h samples, i = .pack sens w h samples

/-- The rule of `i` yields the plan `p` from every state, in the mode `md` where the request is READ_MODE. -/
def Plan.YieldedBy (p : Plan) (i : Instr) (md : Mode) : Prop :=
  ∀ v : State, (i = .readMode → v.mode = md) →
    ∃ m : Memory, exec i v = .next ({ v with frame := m }.plan p.txq p.commit p.resp)

/-- Request `i` has one plan in the mode `md`, whatever else the state holds. (`YieldsOnePlan` speaks of one frame at a time; a
stream needs the plan before the frame is known.) -/
def HasPlan (i : Instr) (md : Mode) : Prop := ∃ p : Plan, p.RespondsFor i ∧ p.YieldedBy i md

/-- A rule that yields transactions and a commit with status OK and no data. -/
theorem HasPlan.of_ok {i : Instr} {md : Mode} (q : List (List Byte)) (c : Option Mode)
    (h : ∀ v : State, ∃ m : Memory, exec i v = .next ({ v with frame := m }.plan q c ⟨0x00, []⟩)) : HasPlan i md :=
  ⟨⟨q, c, ⟨0x00, []⟩⟩, ⟨.inl rfl, fun hne => absurd rfl hne⟩, fun v _ => h v⟩

/-- A rule that raises a condition (R109). -/
theorem HasPlan.of_raised {i : Instr} {md : Mode} (c : Condition) (hc : c ≠ .illegalOpcode)
    (h : ∀ v : State, exec i v = .next (v.plan [] none ⟨c.status, []⟩)) : HasPlan i md := by
  refine ⟨⟨[], none, ⟨c.status, []⟩⟩, ⟨.inr ⟨?_, rfl, rfl, rfl⟩, fun hne => absurd rfl hne⟩, fun v _ => ⟨v.frame, h v⟩⟩
  cases c with
  | invalidDimensions => exact .inl rfl
  | badOperand => exact .inr rfl
  | illegalOpcode => exact absurd rfl hc

theorem hasPlan_setTextXy (col row : Byte) (md : Mode) : HasPlan (.setTextXy col row) md := by
  rcases Nat.lt_or_ge row.toNat 80 with h | h
  · exact .of_ok _ _ fun v => ⟨v.frame, execSetTextXy_legal col row v h⟩
  · exact .of_raised .badOperand (by decide) fun v => execSetTextXy_illegal col row v h

theorem hasPlan_setup (b : Byte) (md : Mode) : HasPlan (.setup b) md := by
  cases h : setupMode b with
  | none => exact .of_raised .badOperand (by decide) fun v => execSetup_reserved b v h
  | some m => exact .of_ok _ _ fun v => ⟨v.frame, execSetup_mode b m v h⟩

/-- The image requests: what `Pack` reads back is the packed frame, whatever FRAME held before (R92, R95). -/
theorem hasPlan_image (sens : Byte) (w h : BitVec 16) (samples : List Byte) (md : Mode) :
    HasPlan (.pack sens w h samples) md ∧ HasPlan (.putImage sens w h samples) md := by
  cases hv : imageValid w.toNat h.toNat samples.length with
  | true =>
    constructor
    · refine ⟨⟨[], none, ⟨0x00, packedFrame sens w.toNat h.toNat samples⟩⟩,
        ⟨.inl rfl, fun _ => .inr ⟨sens, w, h, samples, rfl⟩⟩, fun v _ => ?_⟩
      obtain ⟨m, hpack, -⟩ := execPack_valid sens w h samples v hv
      exact ⟨m, hpack⟩
    · refine .of_ok (chunks (packedFrame sens w.toNat h.toNat samples)) none fun v => ?_
      obtain ⟨m, -, hput, -⟩ := execPack_valid sens w h samples v hv
      exact ⟨m, hput⟩
  | false =>
    exact ⟨.of_raised .invalidDimensions (by decide) fun v => (execPack_invalid sens w h samples v hv).1,
      .of_raised .invalidDimensions (by decide) fun v => (execPack_invalid sens w h samples v hv).2⟩

/-- The plan of every request, said once (R32, R67, R108). -/
theorem hasPlan (i : Instr) (md : Mode) : HasPlan i md := by
  cases i with
  | sendCmd b => exact .of_ok [cmdTxn b] none fun v => ⟨v.frame, rfl⟩
  | sendData b => exact .of_ok [dataTxn b] none fun v => ⟨v.frame, rfl⟩
  | sendArray payload => exact .of_ok (chunks payload) none fun v => ⟨v.frame, execSendArray_eq payload v⟩
  | setHmode => exact .of_ok (modeSwitchTxns .horizontal) (some .horizontal) fun v => ⟨v.frame, rfl⟩
  | setPmode => exact .of_ok (modeSwitchTxns .page) (some .page) fun v => ⟨v.frame, rfl⟩
  | setTextXy col row => exact hasPlan_setTextXy col row md
  | putChar cp => exact .of_ok _ _ fun v => ⟨v.frame, execPutChar_eq cp v⟩
  | putImage sens w h samples => exact (hasPlan_image sens w h samples md).2
  | pack sens w h samples => exact (hasPlan_image sens w h samples md).1
  | setup b => exact hasPlan_setup b md
  | setBrightness v => exact .of_ok [cmdTxn Config.contrastCmd, cmdTxn v] none fun v => ⟨v.frame, rfl⟩
  | readMode =>
    exact ⟨⟨[], none, ⟨0x00, [md.byte]⟩⟩, ⟨.inl rfl, fun _ => .inl rfl⟩,
      fun v hv => ⟨v.frame, by rw [← hv rfl]; rfl⟩⟩

/-! ### The plans of a stream of requests -/

/-- The plans of a stream of requests, each yielded in the mode that the ones before it leave, from the mode `md` (R54). -/
inductive PlansOf : Mode → List Instr → List Plan → Prop
  | nil (md : Mode) : PlansOf md [] []
  | cons {md : Mode} {i : Instr} {p : Plan} {is : List Instr} {plans : List Plan} (hp : p.YieldedBy i md)
      (hplans : PlansOf (p.commit.getD md) is plans) : PlansOf md (i :: is) (p :: plans)

theorem exists_plansOf (is : List Instr) (md : Mode) : ∃ plans, PlansOf md is plans := by
  induction is generalizing md with
  | nil => exact ⟨[], .nil md⟩
  | cons i is ih =>
    obtain ⟨p, -, hp⟩ := hasPlan i md
    obtain ⟨plans, hplans⟩ := ih (p.commit.getD md)
    exact ⟨p :: plans, .cons hp hplans⟩

theorem PlansOf.length_eq {md : Mode} {is : List Instr} {plans : List Plan} (h : PlansOf md is plans) :
    plans.length = is.length := by
  induction h with
  | nil => rfl
  | cons _ _ ih => exact congrArg Nat.succ ih

/-- The plan in each place is yielded in the mode that the plans before it leave. -/
theorem PlansOf.yieldedBy {md : Mode} {is : List Instr} {plans : List Plan} (h : PlansOf md is plans) {j : Nat} {i : Instr}
    {p : Plan} (hi : is[j]? = some i) (hp : plans[j]? = some p) : p.YieldedBy i (modeAfter md (plans.take j)) := by
  induction h generalizing j with
  | nil => cases hi
  | cons hyield _ ih =>
    cases j with
    | zero =>
      cases hi
      cases hp
      exact hyield
    | succ j => exact ih hi hp

/-! ### A stream of requests is served -/

/-- The block is idle, nothing is held of any request, and reset is not asserted. -/
structure State.Resting (s : State) : Prop where
  phase : s.phase = .idle
  fault : s.fault = false
  line : s.resetLine = []
  cur : s.cur = []
  registers : s.RegistersEmpty

theorem Inv.resting {s : State} (h : Inv s) (hphase : s.phase = .idle) (hline : s.resetLine = []) : s.Resting :=
  ⟨hphase, h.fault_of_receiving (.inl hphase), hline, h.idleCur hphase, h.registersEmpty (.inl hphase)⟩

/-- The resting block after `k` bytes of `REQ` and their requests' plans, which have left the mode `md` and shown `evs`: `rest`
and `more` are still to come on the input channels. Nothing else has changed. -/
def State.served (s : State) (k : Nat) (md : Mode) (evs : List Event) (rest : List Byte) (more : List (Option Answer)) :
    State :=
  { s with req := rest, rp := s.rp + k, mode := md, transport := more, trace := s.trace ++ evs }

theorem State.Resting.served {s : State} (h : s.Resting) (k : Nat) (md : Mode) (evs : List Event) (rest : List Byte)
    (more : List (Option Answer)) : (s.served k md evs rest more).Resting :=
  ⟨h.phase, h.fault, h.line, h.cur, h.registers⟩

theorem served_served (s : State) (k k' : Nat) (md md' : Mode) (evs evs' : List Event) (rest rest' : List Byte)
    (more more' : List (Option Answer)) :
    (s.served k md evs rest more).served k' md' evs' rest' more' = s.served (k + k') md' (evs ++ evs') rest' more' := by
  simp [State.served, Nat.add_assoc]

/-- One whole request is served: its bytes are received, its plan is made, and its transactions are answered. -/
theorem run_serves_plan {i : Instr} {p : Plan} {s : State} {rest : List Byte} {answers : List Answer}
    {more : List (Option Answer)} (h : s.Resting) (hwf : i.wellFormed = true) (hp : p.YieldedBy i s.mode)
    (hreq : s.req = encode i ++ rest) (hlen : answers.length = p.txq.length)
    (htr : s.transport = answers.map some ++ more) :
    run ((encode i).length + max 1 p.txq.length) s =
      .next (s.served (encode i).length (p.commit.getD s.mode) (p.events s.devAddr answers) rest more) := by
  have hd := decode_encode i hwf
  obtain ⟨m, hexec⟩ := hp { s with req := rest, rp := s.rp + (encode i).length, cur := encode i, phase := .exec } fun _ => rfl
  obtain ⟨htxq, hin, hcommit, hresp, hframe⟩ := h.registers
  have hreceive := run_receives (encode i) (.inl h.phase) h.fault h.line hreq (ne_nil_of_decode_ok hd)
    (by rwa [State.held_append_of_idle h.phase]) (by rwa [State.held_append_of_idle h.phase])
  rw [run_add _ _ _ _ hreceive, ← hlen, ← List.length_map (f := some)]
  refine Eq.trans (run_serves_request (answers.map some) ⟨rfl, h.fault, h.line, rfl⟩ hin (by simpa using hlen)
    (by simp [List.getLast?_map]) htr) ?_
  simp [State.ended, State.served, State.eventsToCome, Plan.events, htxq, hin, hcommit, hresp, hframe, h.cur, h.phase]

/-- What the plans of a stream show, each with the transport's answers to its transactions, and nothing in between. -/
def streamEvents (addr : BitVec 7) (plans : List Plan) (answers : List (List Answer)) : List Event :=
  (plans.zip answers).flatMap fun x => x.1.events addr x.2

/-- A resting block serves a stream of requests, one after another; the number of steps depends on the requests and their
plans alone (R42, R53, R54). -/
theorem PlansOf.run_serves {md : Mode} {is : List Instr} {plans : List Plan} (hplans : PlansOf md is plans)
    (hwf : ∀ i ∈ is, i.wellFormed = true) :
    ∃ n : Nat, ∀ (s : State) (rest : List Byte) (answers : List (List Answer)) (more : List (Option Answer)),
      s.Resting → s.mode = md → s.req = is.flatMap encode ++ rest →
      answers.map List.length = plans.map (fun p => p.txq.length) → s.transport = answers.flatten.map some ++ more →
      run n s = .next (s.served (is.flatMap encode).length (modeAfter md plans) (streamEvents s.devAddr plans answers) rest
        more) := by
  induction hplans with
  | nil md =>
    refine ⟨0, fun s rest answers more _ hmode hreq hlens htr => ?_⟩
    obtain rfl : answers = [] := by simpa using hlens
    subst hmode
    obtain rfl : s.transport = more := by simpa using htr
    obtain rfl : s.req = rest := by simpa using hreq
    simp [State.served, streamEvents, modeAfter]
  | @cons md i p is plans hp _ ih =>
    obtain ⟨n, hrun⟩ := ih fun j hj => hwf j (List.mem_cons_of_mem i hj)
    refine ⟨(encode i).length + max 1 p.txq.length + n, fun s rest answers more h hmode hreq hlens htr => ?_⟩
    subst hmode
    obtain _ | ⟨a, answers⟩ := answers
    · simp at hlens
    · obtain ⟨hlen, hlens⟩ := List.cons.inj hlens
      have hfirst := run_serves_plan (rest := is.flatMap encode ++ rest) (more := answers.flatten.map some ++ more) h
        (hwf i List.mem_cons_self) hp (by simp [hreq]) hlen (by simp [htr])
      refine (run_add _ _ _ _ hfirst).trans ((hrun _ rest answers more (h.served ..) rfl rfl hlens rfl).trans ?_)
      rw [served_served, modeAfter_cons]
      simp [State.served, streamEvents]

/-- Settles O48: the plans of the stream are fixed by the requests and the mode, and the resting block serves them in turn. -/
theorem requestStreamIsServed : Obligations.RequestStreamIsServed := by
  intro is s rest hwf h hphase hline hreq
  obtain ⟨plans, hplans⟩ := exists_plansOf is s.mode
  obtain ⟨n, hrun⟩ := hplans.run_serves hwf
  refine ⟨n, plans, hplans.length_eq, fun j i p hi hp v hv => hplans.yieldedBy hi hp v fun _ => hv, ?_⟩
  exact fun answers more hlens htr => hrun s rest answers more (h.resting hphase hline) rfl hreq hlens htr

/-! ### What a request yields -/

/-- The legal transactions, written out: `0x00` and one byte, or `0x40` and at most 31 bytes (R47). -/
theorem legalTxn_iff (p : List Byte) :
    legalTxn p = true ↔ (∃ c, p = [0x00, c]) ∨ ∃ q : List Byte, p = 0x40 :: q ∧ q.length ≤ 31 := by
  cases p with
  | nil => simp [legalTxn]
  | cons x q =>
    simp only [legalTxn, Bool.or_eq_true, Bool.and_eq_true, beq_iff_eq, decide_eq_true_eq, List.length_eq_one_iff]
    simp [Config.prefixCmd, Config.prefixData, Config.chunkMax]

/-- Settles O23: the plan's transactions are legal, and it responds as its request does. -/
theorem yieldedTransactionsAreLegal : Obligations.YieldedTransactionsAreLegal := by
  intro i s t h
  obtain ⟨m, p, hlegal, -, rfl⟩ := exec_inv h
  obtain ⟨p', ⟨hstatus, hdata⟩, hyield⟩ := hasPlan i s.mode
  obtain ⟨m', hexec⟩ := hyield s fun _ => rfl
  have heq := Host.Outcome.next.inj (h.symm.trans hexec)
  refine ⟨fun x hx => (legalTxn_iff x).mp (hlegal.txqLegal x hx), ?_⟩
  rw [heq]
  exact ⟨p'.resp, rfl, hstatus.imp_right And.left, fun hne => (hstatus.resolve_left hne).2, hdata⟩

/-! ### The request stream -/

/-- What an engine step does with `REQ`: nothing, in EXEC or where no byte is offered, or it consumes the first byte offered
(R26, R32, R35). -/
theorem engine_consumes {s t : State} (hstep : engine s = .next t) :
    (t.req = s.req ∧ t.rp = s.rp ∧ (s.phase = .exec ∨ (s.req = [] ∧ t = s))) ∨
    ∃ b, (s.phase = .idle ∨ s.phase = .recv) ∧ s.req = b :: t.req ∧ t.rp = s.rp + 1 ∧ t.cur = s.held ++ [b] := by
  rcases engine_cases s with ⟨-, he⟩ | ⟨-, hexec, he⟩ | ⟨-, -, hreq, he⟩ | ⟨b, rest, -, hphase, hreq, hconsume⟩
  · rw [hstep] at he; cases he
  · obtain rfl := Host.Outcome.next.inj (hstep.symm.trans he)
    exact .inl ⟨s.execPhase_req, s.execPhase_rp, .inl hexec⟩
  · obtain rfl := Host.Outcome.next.inj (hstep.symm.trans he)
    exact .inl ⟨rfl, rfl, .inr ⟨hreq, rfl⟩⟩
  · right
    refine ⟨b, hphase, ?_⟩
    rw [← s.curWith_eq_held]
    rcases hconsume with ⟨-, he⟩ | ⟨x, -, he⟩ | ⟨i, tail, -, he⟩
    · obtain rfl := Host.Outcome.next.inj (hstep.symm.trans he)
      exact ⟨hreq, rfl, rfl⟩
    · obtain rfl := Host.Outcome.next.inj (hstep.symm.trans he)
      exact ⟨hreq, rfl, rfl⟩
    · obtain ⟨m, p, -, -, rfl⟩ := exec_inv (he.symm.trans hstep)
      exact ⟨hreq, rfl, rfl⟩

/-- Settles O28: the engine's step, with no byte held in IDLE and those of `CUR` in RECV. -/
theorem requestBytesAreConsumedInOrder : Obligations.RequestBytesAreConsumedInOrder := by
  intro s t hreset hstep
  rw [step_of_no_reset s hreset] at hstep
  rcases engine_consumes hstep with hkeep | ⟨b, hphase, hreq, hrp, hcur⟩
  · exact .inl hkeep
  · refine .inr ⟨b, hreq, hrp, hphase.imp (fun hidle => ⟨hidle, ?_⟩) fun hrecv => ⟨hrecv, ?_⟩⟩
    · exact hcur.trans (State.held_append_of_idle hidle [b])
    · exact hcur.trans (congrArg (· ++ [b]) (State.held_of_recv hrecv))

/-! ### The buffers -/

/-- A decoded request begins with the opcode byte of its row (R60, R63). -/
theorem decode_eq_ok {q rest : List Byte} {i : Instr} (h : decode q = .ok (i, rest)) :
    ∃ (o : Opcode) (args : List Byte), q = o.byte :: args ∧ decodeOperands o args = some (i, rest) := by
  unfold decode at h
  split at h
  · cases h
  · split at h
    · cases h
    · rename_i o ho
      split at h
      · cases h
      · rename_i hops
        cases h
        exact ⟨o, _, by rw [Opcode.ofByte_eq_some _ o ho], hops⟩

/-- `PAYLOAD` comes after the two bytes of `L` (R60). -/
theorem fieldsFA_eq_some {q payload rest : List Byte} (h : fieldsFA q = some (payload, rest)) :
    ∃ l0 l1, q = l0 :: l1 :: (payload ++ rest) := by
  unfold fieldsFA at h
  split at h
  · obtain ⟨rfl, -⟩ := takeBytes_eq_some _ _ _ _ h
    exact ⟨_, _, rfl⟩
  · cases h

/-- `SAMPLE` comes after the nine bytes of `S`, `W`, `H` and `N` (R60). -/
theorem fieldsFI_eq_some {q rest : List Byte} {f : ImageFields} (h : fieldsFI q = some (f, rest)) :
    q.drop 9 = f.samples ++ rest := by
  unfold fieldsFI at h
  split at h
  · obtain ⟨⟨samples, r⟩, htake, hf⟩ := Option.map_eq_some_iff.mp h
    cases hf
    exact (takeBytes_eq_some _ _ _ _ htake).1
  · cases h

/-- The operands of SEND_ARRAY are the ones of its own row: the payload begins at byte 3 (R60, R63). -/
theorem drop_of_decode_sendArray {q payload rest : List Byte} (hd : decode q = .ok (.sendArray payload, rest)) :
    q.drop 3 = payload ++ rest := by
  obtain ⟨o, args, rfl, hops⟩ := decode_eq_ok hd
  cases o <;> simp [decodeOperands] at hops
  obtain ⟨l0, l1, rfl⟩ := fieldsFA_eq_some hops
  rfl

/-- The samples of the image requests begin at byte 10 (R60, R63). -/
theorem drop_of_decode_image {q samples rest : List Byte} {sens : Byte} {w h : BitVec 16}
    (hd : decode q = .ok (.putImage sens w h samples, rest) ∨ decode q = .ok (.pack sens w h samples, rest)) :
    q.drop 10 = samples ++ rest := by
  rcases hd with hd | hd
  all_goals
    obtain ⟨o, args, rfl, hops⟩ := decode_eq_ok hd
    cases o <;> simp [decodeOperands] at hops
    obtain ⟨f, hfields, rfl, rfl, rfl, rfl⟩ := hops
    exact fieldsFI_eq_some hfields

/-- Settles O37: the decoder takes the variable part from where the buffers begin. -/
theorem buffersHoldTheVariablePart : Obligations.BuffersHoldTheVariablePart := by
  intro s
  refine ⟨fun payload hd => ?_, fun sens w h samples hd => ?_, fun sens w h samples hd => ?_⟩
  · exact (drop_of_decode_sendArray hd).trans payload.append_nil
  · exact (drop_of_decode_image (.inl hd)).trans samples.append_nil
  · exact (drop_of_decode_image (.inr hd)).trans samples.append_nil

/-! ### `FRAME` -/

/-- Settles O38, by the laws of `Memory.write`. -/
theorem frameWriteSetsOneByte : Obligations.FrameWriteSetsOneByte :=
  fun m a v => ⟨m.read_write_same a v, fun b hb => m.read_write_other a b v hb, m.write_wf a v⟩

/-! ### The transactions on the bus -/

/-- The payload that is issued and not yet answered. -/
def BusState.pending : BusState → List (List Byte)
  | .waiting p => [p]
  | _ => []

theorem State.busState_pending (s : State) : s.busState.pending = if s.inflight = true then s.txq.take 1 else [] := by
  cases hin : s.inflight <;> cases htxq : s.txq <;> simp [State.busState, hin, htxq, BusState.pending]

/-- The events that the bus takes, said once: one case for each rule of `BusState.after` (R41, R48, R52, R53, R111, R122). -/
theorem after_cases {b b' : BusState} {e : Event} (h : b.after e = some b') :
    (∃ p, b = .quiet ∧ e = .issue Config.devAddr p ∧ legalTxn p = true ∧ b' = .waiting p) ∨
    (∃ r, b = .quiet ∧ e = .respond r ∧ legalResponse r = true ∧ b' = .quiet) ∨
    (∃ p, b = .waiting p ∧ ((e = .answer p .success ∧ b' = .quiet) ∨ (e = .answer p .failure ∧ b' = .failed p) ∨
      (e = .abandon p ∧ b' = .quiet))) ∨
    (∃ p, b = .failed p ∧ e = .txFail p ∧ b' = .quiet) := by
  unfold BusState.after at h
  split at h <;> simp_all

/-- An event adds to the transactions issued, answered and pending so that the three stay in balance (R48, R52). -/
theorem after_balance {b b' : BusState} {e : Event} (h : b.after e = some b') :
    b.pending ++ (issued [e]).map Prod.snd = (transactions [e]).map TxRecord.payload ++ b'.pending := by
  rcases after_cases h with ⟨p, rfl, rfl, -, rfl⟩ | ⟨r, rfl, rfl, -, rfl⟩ |
    ⟨p, rfl, ⟨rfl, rfl⟩ | ⟨rfl, rfl⟩ | ⟨rfl, rfl⟩⟩ | ⟨p, rfl, rfl, rfl⟩ <;> rfl

/-- An issue event goes to `DEV_ADDR` and is legal (R41, R47). -/
theorem after_issued {b b' : BusState} {e : Event} (h : b.after e = some b') :
    ∀ x ∈ issued [e], x.1 = Config.devAddr ∧ legalTxn x.2 = true := by
  rcases after_cases h with ⟨p, -, rfl, hlegal, -⟩ | ⟨r, -, rfl, -⟩ | ⟨p, -, ⟨rfl, -⟩ | ⟨rfl, -⟩ | ⟨rfl, -⟩⟩ | ⟨p, -, rfl, -⟩
  · exact List.forall_mem_singleton.mpr ⟨rfl, hlegal⟩
  all_goals exact List.forall_mem_nil _

/-- The bus log of a trace that obeys the bus rules: its issue events are legal, and each is answered or abandoned in order,
but for the one pending. -/
theorem foldlM_after_log {tr : List Event} {b b' : BusState} (h : tr.foldlM BusState.after b = some b') :
    b.pending ++ (issued tr).map Prod.snd = (transactions tr).map TxRecord.payload ++ b'.pending ∧
    ∀ x ∈ issued tr, x.1 = Config.devAddr ∧ legalTxn x.2 = true := by
  induction tr generalizing b with
  | nil =>
    cases h
    exact ⟨List.append_nil _, List.forall_mem_nil _⟩
  | cons e tr ih =>
    rw [List.foldlM_cons] at h
    obtain ⟨c, he, htr⟩ := Option.bind_eq_some_iff.mp h
    obtain ⟨hbalance, hlegal⟩ := ih htr
    rw [← List.singleton_append, issued_append, transactions_append, List.map_append, List.map_append]
    refine ⟨?_, List.forall_mem_append.mpr ⟨after_issued he, hlegal⟩⟩
    rw [← List.append_assoc, after_balance he, List.append_assoc, hbalance, List.append_assoc]

/-- The sizes and the first byte of a legal transaction (R6, R7, R47). -/
theorem legalTxn_size {p : List Byte} (h : legalTxn p = true) :
    1 ≤ p.length ∧ p.length ≤ 32 ∧ (p.head? = some 0x00 ∨ p.head? = some 0x40) := by
  rcases (legalTxn_iff p).mp h with ⟨c, rfl⟩ | ⟨q, rfl, hq⟩
  · exact ⟨Nat.le_add_left 1 1, by simp, .inl rfl⟩
  · exact ⟨Nat.le_add_left 1 _, Nat.succ_le_succ hq, .inr rfl⟩

/-- Settles O44: the trace obeys the bus rules, and what is pending after it is the sequencer's transaction in flight. -/
theorem transactionsGoOutOneAtATime : Obligations.TransactionsGoOutOneAtATime := by
  intro s h
  obtain ⟨hbalance, hissued⟩ := foldlM_after_log h.traceBus
  rw [s.busState_pending] at hbalance
  refine ⟨hbalance, fun x hx => ?_⟩
  obtain ⟨haddr, hlegal⟩ := hissued x hx
  exact ⟨haddr, legalTxn_size hlegal⟩

/-! ### The end of a running request -/

@[simp] theorem responses_answerEvents (p : List Byte) (r : Answer) : responses (answerEvents p r) = [] := by
  cases r <;> rfl

theorem responses_issue (s : State) : responses s.issue.trace = responses s.trace := by
  cases htxq : s.txq with
  | nil => rw [issue_nil s htxq]
  | cons p q =>
    rw [issue_cons s p q htxq, responses_append]
    cases hin : s.inflight <;> simp [State.issueEvents, hin, responses]

theorem responses_poll (s : State) : responses s.poll.trace = responses s.trace := by
  rcases poll_cases s with he | ⟨as, he⟩ | ⟨r, as, -, he⟩
  · rw [he]
  · rw [he]
  · rw [he, responses_append]
    cases s.txq with
    | nil => exact List.append_nil _
    | cons p q => simp

/-- Issuing a transaction and polling its answer emit no response (R53). -/
theorem responses_issue_poll (s : State) : responses s.issue.poll.trace = responses s.trace :=
  (responses_poll s.issue).trans (responses_issue s)

/-- What `finish` does to a running request that meets the invariant: nothing while a transaction is to be answered, or it ends
the request, with `COMMIT` in `MODE` and `RESP` as the last event (R32, R54). -/
theorem Inv.finish_cases {s : State} (h : Inv s) (hphase : s.phase = .exec) :
    (s.txq ≠ [] ∧ s.finish = s) ∨
    (∃ r, s.resp = some r ∧ s.inflight = false ∧ s.finish.phase = .idle ∧
      s.finish.mode = s.commit.getD s.mode ∧ s.finish.trace = s.trace ++ [.respond r]) := by
  by_cases htxq : s.txq = []
  · obtain ⟨-, hresp⟩ := h.execCur hphase
    obtain ⟨r, hr⟩ := Option.ne_none_iff_exists'.mp hresp
    have hin : s.inflight = false := Bool.eq_false_iff.mpr fun hin => h.inflightTxq hin htxq
    rw [finish_ends hin htxq, hr]
    exact .inr ⟨r, rfl, hin, rfl, rfl, rfl⟩
  · exact .inl ⟨htxq, finish_goes_on (.inr htxq)⟩

/-- Settles O50: `finish` alone writes `MODE` and emits the response, and it does so where `issue` and `poll` have left nothing
to be answered. -/
theorem commitComesAfterTheLastAnswer : Obligations.CommitComesAfterTheLastAnswer := by
  intro s t h hphase hreset hstep
  have ht := stepKeepsTheInvariant s t h hstep
  rw [step_exec hreset (h.fault_eq_false (by simp [hphase])) hphase] at hstep
  obtain rfl := Host.Outcome.next.inj hstep
  have hresponses := responses_issue_poll s.pastSample
  have hend := h.pastSample.issue.poll.finish_cases (by simp [hphase])
  rw [State.execPhase] at ht ⊢
  rcases hend with ⟨htxq, he⟩ | ⟨r, hr, hin, hidle, hmode, htrace⟩
  · rw [he]
    exact ⟨fun _ => ⟨by simp, by simp, hresponses, htxq⟩, fun hne => absurd (by simp [hphase]) hne⟩
  · refine ⟨fun hexec => absurd (hidle.symm.trans hexec) (by decide), fun _ => ⟨hidle, ?_, ⟨r, ?_, ?_, ?_⟩, ?_⟩⟩
    · simpa using hmode
    · simpa using hr
    · rw [htrace, responses_append, hresponses]
      rfl
    · rw [htrace, List.getLast?_concat]
    · simpa [hin] using (transactionsGoOutOneAtATime _ ht).1

end Sys2Proof.Machine
end

section
/-! PROOFS. The statements of 30_encoding.md: the decoder and the encoder, the column commands, and the response byte stream. -/

namespace Sys2Proof

/-! ### Encode, then decode -/

/-- Settles O3: each format's operands come back from their encoding, and no byte after them is read. -/
theorem decodeOfEncode : Obligations.DecodeOfEncode := decode_encode_append

/-! ### Decode, then encode -/

/-- Format FA has one spelling: what is read is the encoding of the payload, which fits `L` (R60, R62). -/
theorem eq_encodeFA_of_fieldsFA {q payload rest : List Byte} (h : fieldsFA q = some (payload, rest)) :
    payloadFits payload = true ∧ q = encodeFA payload ++ rest := by
  unfold fieldsFA at h
  split at h
  · rename_i l0 l1 r
    obtain ⟨rfl, hlen⟩ := takeBytes_eq_some _ _ _ _ h
    exact ⟨decide_eq_true (hlen ▸ (le16 l0 l1).isLt), by simp [encodeFA, hlen]⟩
  · cases h

/-- Format FI has one spelling: what is read is the encoding of the fields, and the samples fit `N` (R60, R62). -/
theorem eq_encodeFI_of_fieldsFI {q rest : List Byte} {f : ImageFields} (h : fieldsFI q = some (f, rest)) :
    samplesFit f.samples = true ∧ q = encodeFI f.sens f.w f.h f.samples ++ rest := by
  unfold fieldsFI at h
  split at h
  · rename_i sens w0 w1 h0 h1 n0 n1 n2 n3 r
    obtain ⟨⟨samples, r⟩, htake, hf⟩ := Option.map_eq_some_iff.mp h
    cases hf
    obtain ⟨rfl, hlen⟩ := takeBytes_eq_some _ _ _ _ htake
    exact ⟨decide_eq_true (hlen ▸ (le32 n0 n1 n2 n3).isLt), by simp [encodeFI, hlen]⟩
  · cases h

/-- The request that an opcode and operand bytes give is well-formed, and they are its encoding, format by format (R60, R63). -/
theorem eq_encode_of_decodeOperands {o : Opcode} {args rest : List Byte} {i : Instr}
    (h : decodeOperands o args = some (i, rest)) : i.wellFormed = true ∧ o.byte :: args = encode i ++ rest := by
  cases o with
  | setHmode | setPmode | readMode =>
    cases h
    exact ⟨rfl, rfl⟩
  | sendCmd | sendData | setup | setBrightness =>
    obtain _ | ⟨b, r⟩ := args
    · cases h
    · cases h
      exact ⟨rfl, rfl⟩
  | setTextXy =>
    match args, h with
    | col :: row :: r, h =>
      cases h
      exact ⟨rfl, rfl⟩
  | putChar =>
    match args, h with
    | c0 :: c1 :: c2 :: r, h =>
      cases h
      exact ⟨rfl, by simp [encode]⟩
  | sendArray =>
    obtain ⟨⟨payload, r⟩, hfields, hi⟩ := Option.map_eq_some_iff.mp h
    cases hi
    obtain ⟨hfit, rfl⟩ := eq_encodeFA_of_fieldsFA hfields
    exact ⟨hfit, rfl⟩
  | putImage | pack =>
    obtain ⟨⟨f, r⟩, hfields, hi⟩ := Option.map_eq_some_iff.mp h
    cases hi
    obtain ⟨hfit, rfl⟩ := eq_encodeFI_of_fieldsFI hfields
    exact ⟨hfit, rfl⟩

/-- Settles O4: the opcode byte read is its row's, and the operands are inverted format by format. -/
theorem encodeOfDecode : Obligations.EncodeOfDecode := by
  intro q i rest h
  obtain ⟨o, args, rfl, hops⟩ := Machine.decode_eq_ok h
  exact eq_encode_of_decodeOperands hops

/-! ### `ReqLen` -/

/-- Where `ReqLen` is known and that many bytes are there, the decoder answers, and the bytes after them are left (R62). -/
theorem decode_of_reqLen {q : List Byte} {n : Nat} (hlen : reqLen q = some n) (hle : n ≤ q.length) :
    ∃ i, decode q = .ok (i, q.drop n) := by
  rcases decode_cases q with ⟨op, args, rfl, hop, -⟩ | ⟨hshort, -, -⟩ | ⟨i, m, hm, -, hd⟩
  · simp [reqLen, hop] at hlen
  · exact absurd hle (Nat.not_le.mpr (hshort n hlen))
  · obtain rfl : n = m := Option.some.inj (hlen.symm.trans hm)
    exact ⟨i, hd⟩

/-- `ReqLen` of an encoded request is the number of its bytes, whatever follows them (R62). -/
theorem reqLen_encode_append (i : Instr) (rest : List Byte) (hwf : i.wellFormed = true) :
    reqLen (encode i ++ rest) = some (encode i).length := by
  have hi := decode_encode i hwf
  rcases decode_cases (encode i) with ⟨op, args, -, -, hd⟩ | ⟨-, -, hd⟩ | ⟨j, n, hn, hle, hd⟩
  · cases hi.symm.trans hd
  · cases hi.symm.trans hd
  · have hdrop : (encode i).drop n = [] := by
      injection hi.symm.trans hd with hpair
      injection hpair with _ hdrop
      exact hdrop.symm
    obtain rfl : n = (encode i).length := Nat.le_antisymm hle (List.drop_eq_nil_iff.mp hdrop)
    exact reqLen_append _ rest _ hn

/-- Settles O5: what is decoded is an encoding (O4), of which `ReqLen` is the length. -/
theorem requestEndsAtReqLen : Obligations.RequestEndsAtReqLen := by
  refine ⟨fun q n => decode_of_reqLen, fun q i rest => ⟨fun h => ?_, ?_⟩, fun i rest hwf => ?_⟩
  · obtain ⟨hwf, rfl⟩ := encodeOfDecode q i rest h
    exact ⟨_, reqLen_encode_append i rest hwf, by simp, by simp, by simpa using decode_encode i hwf⟩
  · rintro ⟨n, -, -, rfl, hd⟩
    obtain ⟨hwf, htake⟩ := encodeOfDecode _ i [] hd
    rw [List.append_nil] at htake
    rw [← decode_encode_append i (q.drop n) hwf, ← htake, List.take_append_drop]
  · refine ⟨reqLen_encode_append i rest hwf, ?_⟩
    cases i with
    | sendArray payload => exact Nat.add_comm payload.length 3
    | putImage sens w h samples | pack sens w h samples => exact Nat.add_comm samples.length 10
    | _ => rfl

/-! ### The fields -/

/-- An opcode byte and the operand bytes of its row decode to the request they give (R60, R63). -/
theorem decode_of_operands {o : Opcode} {args rest : List Byte} {i : Instr} (h : decodeOperands o args = some (i, rest)) :
    decode (o.byte :: args) = .ok (i, rest) := by
  simp [decode, h]

/-- Format FA, from its bytes: the payload has the number of bytes that `L` says (R60, R61). -/
theorem fieldsFA_of_length {q1 q2 : Byte} {payload : List Byte} (r : List Byte)
    (h : payload.length = q1.toNat + 256 * q2.toNat) : fieldsFA (q1 :: q2 :: (payload ++ r)) = some (payload, r) :=
  takeBytes_append payload r _ ((le16_toNat q1 q2).trans h.symm)

/-- Format FI, from its bytes: there are as many samples as `N` says (R60, R61). -/
theorem fieldsFI_of_length {q1 q2 q3 q4 q5 q6 q7 q8 q9 : Byte} {samples : List Byte} (r : List Byte)
    (h : samples.length = q6.toNat + 256 * q7.toNat + 65536 * q8.toNat + 16777216 * q9.toNat) :
    fieldsFI (q1 :: q2 :: q3 :: q4 :: q5 :: q6 :: q7 :: q8 :: q9 :: (samples ++ r)) =
      some (⟨q1, le16 q2 q3, le16 q4 q5, samples⟩, r) := by
  rw [fieldsFI, takeBytes_append samples r _ ((le32_toNat q6 q7 q8 q9).trans h.symm)]
  rfl

/-- Settles O2: each opcode byte is its row's, and each field is the number of its bytes. -/
theorem fieldsAreAssembledLittleEndian : Obligations.FieldsAreAssembledLittleEndian := by
  refine ⟨fun b r => ⟨?_, ?_, ?_, ?_⟩, fun col row r => ?_, fun q1 q2 q3 r => ?_, fun q1 q2 payload r h => ?_,
    fun q1 q2 q3 q4 q5 q6 q7 q8 q9 samples r h => ?_⟩
  · exact decode_of_operands (o := .sendCmd) rfl
  · exact decode_of_operands (o := .sendData) rfl
  · exact decode_of_operands (o := .setup) rfl
  · exact decode_of_operands (o := .setBrightness) rfl
  · exact decode_of_operands (o := .setTextXy) rfl
  · exact ⟨le24 q1 q2 q3, decode_of_operands (o := .putChar) rfl, le24_toNat q1 q2 q3⟩
  · exact decode_of_operands (o := .sendArray) (by rw [decodeOperands, fieldsFA_of_length r h]; rfl)
  · have hfields := fieldsFI_of_length (q1 := q1) (q2 := q2) (q3 := q3) (q4 := q4) (q5 := q5) r h
    exact ⟨le16 q2 q3, le16 q4 q5, decode_of_operands (o := .putImage) (by rw [decodeOperands, hfields]; rfl),
      decode_of_operands (o := .pack) (by rw [decodeOperands, hfields]; rfl), le16_toNat q2 q3, le16_toNat q4 q5⟩

/-- Settles O1: the decoder runs on each of the sequences. -/
theorem writtenOutRequestsDecode : Obligations.WrittenOutRequestsDecode := by
  refine ⟨?_, ?_, ?_, ?_, ?_, ?_, ?_, ?_, ?_, ?_, ?_, ?_⟩ <;> rfl

/-! ### The illegal opcode bytes -/

/-- The decoder refuses the opcode byte exactly where the opcode map has no row for it (R64). -/
theorem decode_illegal_iff (b : Byte) (q : List Byte) :
    decode (b :: q) = .error (.illegalOpcode b) ↔ Opcode.ofByte b = none := by
  cases hop : Opcode.ofByte b with
  | none => simp [decode, hop]
  | some o => cases hops : decodeOperands o q <;> simp [decode, hop, hops]

/-- Settles O6: the opcode map has no row for exactly these bytes. -/
theorem illegalOpcodeBytes : Obligations.IllegalOpcodeBytes :=
  fun b q => (decode_illegal_iff b q).trans (Opcode.ofByte_eq_none b)

end Sys2Proof

namespace Sys2Proof.Machine

/-! ### The column commands -/

theorem and_0x0F_eq_mod (x : Nat) : x &&& 0x0F = x % 16 := Nat.and_two_pow_sub_one_eq_mod x 4

/-- A bit above four others: the bitwise or is the sum. -/
theorem or_mod_eq_add (x : Nat) : 0x10 ||| x % 16 = 16 + x % 16 :=
  (Nat.two_pow_add_eq_or_of_lt (i := 4) (Nat.mod_lt x (by decide)) 1).symm

theorem colLo_toNat (col : Byte) : (colLo col).toNat = 8 * col.toNat % 16 := by
  rw [colLo, Nat.zero_or, and_0x0F_eq_mod, BitVec.toNat_ofNat]
  omega

theorem colHi_toNat (col : Byte) : (colHi col).toNat = 16 + 8 * col.toNat / 16 % 16 := by
  rw [colHi, and_0x0F_eq_mod, or_mod_eq_add, Nat.shiftRight_eq_div_pow, BitVec.toNat_ofNat]
  omega

/-- The form of `ColHi` in which `COL` stays a byte (R73). -/
theorem colHi_eq_or (col : Byte) : colHi col = 0x10 ||| ((col >>> 1) &&& 0x0F) := by
  apply BitVec.eq_of_toNat_eq
  have hand : (col >>> 1 &&& 0x0F).toNat = col.toNat / 2 % 16 := by
    rw [BitVec.toNat_and, BitVec.toNat_ushiftRight, Nat.shiftRight_eq_div_pow]
    exact and_0x0F_eq_mod _
  rw [colHi_toNat, BitVec.toNat_or, hand]
  refine Eq.trans ?_ (or_mod_eq_add _).symm
  omega

/-- Settles O13: both column bytes as numbers, of which each clause is a fact of arithmetic. -/
theorem columnCommandsAlias : Obligations.ColumnCommandsAlias := by
  intro col
  refine ⟨?_, ?_, ?_, colHi_eq_or col, ?_, fun col' hcol => ⟨?_, ?_⟩⟩
  · rw [colLo_toNat, Nat.zero_or, and_0x0F_eq_mod]
  · rw [colHi_toNat, and_0x0F_eq_mod, or_mod_eq_add, Nat.shiftRight_eq_div_pow]
  · apply BitVec.eq_of_toNat_eq
    rw [colLo_toNat]
    split
    · exact (by omega : 8 * col.toNat % 16 = 8)
    · exact (by omega : 8 * col.toNat % 16 = 0)
  · rw [colLo_toNat, colHi_toNat]
    omega
  · apply BitVec.eq_of_toNat_eq
    rw [colLo_toNat, colLo_toNat]
    omega
  · apply BitVec.eq_of_toNat_eq
    rw [colHi_toNat, colHi_toNat]
    omega

theorem pageCmd_toNat (row : Byte) (h : row.toNat < 80) : (pageCmd row).toNat = 0xB0 + row.toNat := by
  rw [pageCmd, BitVec.toNat_ofNat]
  omega

/-- Settles O12: the bytes of a legal row are the page select and the column commands of O13. -/
theorem setTextXyYieldsThreeCommands : Obligations.SetTextXyYieldsThreeCommands := by
  intro col row s
  refine ⟨fun h => ?_, execSetTextXy_illegal col row s⟩
  obtain ⟨hlo, hhi, -⟩ := columnCommandsAlias col
  exact ⟨_, _, _, execSetTextXy_legal col row s h, pageCmd_toNat row h, hlo, hhi⟩

/-! ### The response byte stream -/

theorem responses_abandoned (s : State) : responses s.abandoned = [] := by
  unfold State.abandoned
  split <;> rfl

/-- `EXEC` goes on and emits no response, or it ends the request and emits `RESP` (R32, R53). -/
theorem execPhase_responses (s : State) :
    (s.execPhase.phase = s.phase ∧ responses s.execPhase.trace = responses s.trace) ∨
    (s.execPhase.phase = .idle ∧ responses s.execPhase.trace = responses s.trace ++ s.resp.toList) := by
  have hquiet := responses_issue_poll s
  unfold State.execPhase
  by_cases hgo : s.issue.poll.inflight = true ∨ s.issue.poll.txq ≠ []
  · rw [finish_goes_on hgo]
    exact .inl ⟨by simp, hquiet⟩
  · obtain ⟨hin, htxq⟩ : s.issue.poll.inflight = false ∧ s.issue.poll.txq = [] := by simpa using hgo
    rw [finish_ends hin htxq, responses_append, hquiet]
    refine .inr ⟨rfl, ?_⟩
    cases hresp : s.resp <;> simp [hresp, responses]

/-- What an engine step emits, said once: nothing, the response of the running request where it ends, or `0xFF` where an
illegal opcode is consumed (R42, R54, R112). -/
theorem engine_responses {s t : State} (hstep : engine s = .next t) :
    (t.fault = false ∧ (s.phase = .exec → t.phase = .exec) ∧ responses t.trace = responses s.trace) ∨
    (t.fault = false ∧ s.phase = .exec ∧ t.phase = .idle ∧ responses t.trace = responses s.trace ++ s.resp.toList) ∨
    (t.fault = true ∧ (s.phase = .idle ∨ s.phase = .recv) ∧ responses t.trace = responses s.trace ++ [⟨0xFF, []⟩]) := by
  rcases engine_cases s with ⟨-, he⟩ | ⟨hf, hexec, he⟩ | ⟨hf, hphase, -, he⟩ | ⟨b, rest, hf, hphase, -, hconsume⟩
  · rw [hstep] at he; cases he
  · obtain rfl := Host.Outcome.next.inj (hstep.symm.trans he)
    rw [State.execPhase_fault]
    exact (execPhase_responses s).imp (fun ⟨hp, hr⟩ => ⟨hf, hp.trans, hr⟩) fun ⟨hp, hr⟩ => .inl ⟨hf, hexec, hp, hr⟩
  · obtain rfl := Host.Outcome.next.inj (hstep.symm.trans he)
    exact .inl ⟨hf, id, rfl⟩
  · have hne : s.phase ≠ .exec := by rcases hphase with hp | hp <;> simp [hp]
    rcases hconsume with ⟨-, he⟩ | ⟨x, -, he⟩ | ⟨i, tail, -, he⟩
    · obtain rfl := Host.Outcome.next.inj (hstep.symm.trans he)
      exact .inl ⟨hf, fun hexec => absurd hexec hne, rfl⟩
    · obtain rfl := Host.Outcome.next.inj (hstep.symm.trans he)
      exact .inr (.inr ⟨rfl, hphase, responses_append ..⟩)
    · obtain ⟨m, p, -, -, rfl⟩ := exec_inv (he.symm.trans hstep)
      exact .inl ⟨hf, fun _ => rfl, rfl⟩

/-- What a response adds to the response stream: its status byte and its result bytes (R42, R67). -/
theorem respStream_of_responses {s t : State} {rs : List Response} (h : responses t.trace = responses s.trace ++ rs) :
    t.respStream = s.respStream ++ rs.flatMap fun r => r.status :: r.data := by
  simp [State.respStream, h]

/-- What a step without reset adds to the response stream: `engine_responses`, in bytes. -/
theorem step_respStream {s t : State} (hreset : s.resetLine.head? ≠ some true) (hstep : step s = .next t) :
    (t.fault = false ∧ (s.phase = .exec → t.phase = .exec) ∧ t.respStream = s.respStream) ∨
    (t.fault = false ∧ s.phase = .exec ∧ t.phase = .idle ∧
      t.respStream = s.respStream ++ s.resp.toList.flatMap fun r => r.status :: r.data) ∨
    (t.fault = true ∧ (s.phase = .idle ∨ s.phase = .recv) ∧ t.respStream = s.respStream ++ [0xFF]) := by
  rw [step_of_no_reset s hreset] at hstep
  rcases engine_responses hstep with ⟨hfault, hstay, hr⟩ | ⟨hfault, hexec, hidle, hr⟩ | ⟨hfault, hphase, hr⟩
  · exact .inl ⟨hfault, hstay, congrArg (List.flatMap _) hr⟩
  · exact .inr (.inl ⟨hfault, hexec, hidle, respStream_of_responses hr⟩)
  · exact .inr (.inr ⟨hfault, hphase, respStream_of_responses hr⟩)

/-- Reset adds nothing to the response stream (R121, R122). -/
theorem applyReset_respStream (s : State) : s.applyReset.respStream = s.respStream := by
  simp [State.respStream, responses_append, responses_abandoned]

/-- The response of PACK with status OK carries the bytes of FRAME (R67, R93). -/
theorem exec_pack_response {sens : Byte} {w h : BitVec 16} {samples : List Byte} {s t : State} {r : Response}
    (hexec : exec (.pack sens w h samples) s = .next t) (hresp : t.resp = some r) (hok : r.status = 0x00) :
    r.data.length = h.toNat / 8 * w.toNat ∧ ∀ a, a < h.toNat / 8 * w.toNat → t.frame.read a = r.data[a]? := by
  cases hv : imageValid w.toNat h.toNat samples.length with
  | true =>
    obtain ⟨m, hpack, -, -, hread, -⟩ := execPack_valid sens w h samples s hv
    obtain rfl := Host.Outcome.next.inj (hpack.symm.trans hexec)
    obtain rfl := Option.some.inj hresp
    exact ⟨packedFrame_length .., hread⟩
  | false =>
    obtain ⟨hpack, -⟩ := execPack_invalid sens w h samples s hv
    obtain rfl := Host.Outcome.next.inj (hpack.symm.trans hexec)
    obtain rfl := Option.some.inj hresp
    exact absurd hok (by decide)

/-- The response of READ_MODE carries the mode's byte (R67, R89). -/
theorem exec_readMode_response {s t : State} {r : Response} (hexec : exec .readMode s = .next t) (hresp : t.resp = some r) :
    r.data = [s.mode.byte] := by
  obtain rfl := Host.Outcome.next.inj hexec
  obtain rfl := Option.some.inj hresp
  rfl

/-- Settles O49: what a step adds is `step_respStream`, and the result bytes of each rule are O23's, with those of PACK and
READ_MODE written out. -/
theorem responseStreamCarriesTheAnswers : Obligations.ResponseStreamCarriesTheAnswers := by
  refine ⟨fun s t hstep => ?_, fun s t r hreset hphase hresp hstep hidle => ?_, fun s t _ hreset hstep hfault => ?_,
    fun i s t hexec => ?_⟩
  · by_cases hreset : s.resetLine.head? = some true
    · obtain ⟨rest, hline⟩ := List.head?_eq_some_iff.mp hreset
      obtain rfl := Host.Outcome.next.inj ((step_of_reset s rest hline).symm.trans hstep)
      exact .inl (applyReset_respStream { s with resetLine := rest })
    · rcases step_respStream hreset hstep with ⟨-, -, hr⟩ | ⟨-, hexec, hidle, hr⟩ | ⟨hfault, hphase, hr⟩
      · exact .inl hr
      · cases hresp : s.resp with
        | none => exact .inl (by simpa [hresp] using hr)
        | some r => exact .inr (.inl ⟨hreset, hexec, hidle, r, rfl, by simpa [hresp] using hr⟩)
      · exact .inr (.inr ⟨hreset, hphase, hfault, hr⟩)
  · rcases step_respStream hreset hstep with ⟨-, hstay, -⟩ | ⟨-, -, -, hr⟩ | ⟨-, hne, -⟩
    · exact absurd ((hstay hphase).symm.trans hidle) (by decide)
    · simpa [hresp] using hr
    · simp [hphase] at hne
  · rcases step_respStream hreset hstep with ⟨hf, -⟩ | ⟨hf, -⟩ | ⟨-, -, hr⟩
    · simp [hf] at hfault
    · simp [hf] at hfault
    · exact hr
  · obtain ⟨-, r, hresp, -, hraised, hdata⟩ := yieldedTransactionsAreLegal i s t hexec
    refine ⟨r, hresp, fun hne => (hraised hne).1, ?_⟩
    split
    · exact exec_pack_response hexec hresp
    · exact ⟨s.mode.byte, exec_readMode_response hexec hresp, fun h => h ▸ rfl, fun h => h ▸ rfl, fun h => h ▸ rfl⟩
    · rename_i hpack hread
      by_contra hne
      rcases hdata hne with rfl | ⟨sens, w, h, samples, rfl⟩
      · exact hread rfl
      · exact hpack sens w h samples rfl

end Sys2Proof.Machine
end

section
/-! PROOFS. The statements of 40_framer.md: what SEND_CMD, SEND_DATA and SEND_ARRAY yield. -/

namespace Sys2Proof.Machine

/-! ### The data portions of `Chunks` -/

/-- The data length of each transaction (R78 (c)). The formula holds of the one transaction of a short payload too. -/
theorem chunks_tail_length {bs p : List Byte} {i : Nat} (h : (chunks bs)[i]? = some p) :
    p.tail.length = min 31 (bs.length - 31 * i) := by
  rcases Nat.lt_or_ge bs.length 32 with hshort | hlong
  · rw [chunks_short bs hshort] at h
    obtain ⟨rfl, rfl⟩ : i = 0 ∧ 0x40 :: bs = p := by simpa [List.getElem?_singleton] using h
    rw [List.tail_cons]
    omega
  · obtain ⟨hi, rfl⟩ := List.getElem?_eq_some_iff.mp h
    rw [List.length_tail, chunks_getElem_length bs hlong i hi, Nat.add_sub_cancel_left]

/-- A transaction without data starts at or past the end of the payload, where `Chunks` has one only for the empty payload
(R78 (d)). -/
theorem eq_nil_of_mem_chunks_of_tail_eq_nil {bs p : List Byte} (hp : p ∈ chunks bs) (hnil : p.tail = []) : bs = [] := by
  obtain ⟨i, hi⟩ := List.mem_iff_getElem?.mp hp
  have hlen := chunks_tail_length hi
  have hbound : i < (chunks bs).length := (List.getElem?_eq_some_iff.mp hi).1
  rw [chunks_length] at hbound
  rw [hnil, List.length_nil] at hlen
  apply List.eq_nil_of_length_eq_zero
  split at hbound <;> omega

/-! ### The number of transactions -/

/-- The rounded-up quotient of R77, in numbers. -/
theorem ceil_div_31 (n : Nat) : ⌈(n : ℚ) / 31⌉₊ = (n + 30) / 31 := by
  refine eq_of_forall_ge_iff fun c => ?_
  calc ⌈(n : ℚ) / 31⌉₊ ≤ c ↔ (n : ℚ) ≤ c * 31 := by rw [Nat.ceil_le, div_le_iff₀ (by norm_num)]
    _ ↔ n ≤ c * 31 := by norm_cast
    _ ↔ (n + 30) / 31 ≤ c := by omega

/-- One transaction for each 31 bytes begun (R77). -/
theorem chunks_length_eq_ceil (bs : List Byte) (h : 1 ≤ bs.length) : (chunks bs).length = ⌈(bs.length : ℚ) / 31⌉₊ := by
  rw [ceil_div_31, chunks_length]
  split <;> omega

/-! ### The requests -/

/-- Settles O8: SEND_ARRAY yields `Chunks` of its payload (`execSendArray_eq`), of which each clause is a law. -/
theorem sendArrayYieldsTheChunks : Obligations.SendArrayYieldsTheChunks := by
  intro payload s
  refine ⟨chunks payload, execSendArray_eq payload s, chunks_data payload, fun p hp => ?_,
    fun _ _ _ hp => chunks_tail_length hp, fun p hp hnil => ?_, fun p hp => ?_, fun hshort => ?_, chunks_length_eq_ceil payload⟩
  · obtain ⟨q, rfl, hq⟩ := mem_chunks payload p hp
    exact Nat.succ_le_succ hq
  · obtain rfl := eq_nil_of_mem_chunks_of_tail_eq_nil hp hnil
    rw [chunks_short [] (by decide), List.mem_singleton] at hp
    exact ⟨rfl, by rw [hp, chunks_short [] (by decide)]⟩
  · obtain ⟨q, rfl, -⟩ := mem_chunks payload p hp
    rfl
  · rw [chunks_short payload hshort, List.length_singleton]

/-- Settles O7: both rules are their plans. -/
theorem sendCmdAndSendDataYieldOneTransaction : Obligations.SendCmdAndSendDataYieldOneTransaction :=
  fun _ _ => ⟨rfl, rfl⟩

/-- Settles O9: the one chunk of a single byte is the transaction of SEND_DATA. -/
theorem sendDataIsSendArrayOfOneByte : Obligations.SendDataIsSendArrayOfOneByte := by
  intro b s
  have hchunks : chunks [b] = [[0x40, b]] := chunks_short [b] (by simp)
  refine ⟨s.plan [[0x40, b]] none ⟨0x00, []⟩, ?_, (sendCmdAndSendDataYieldOneTransaction b s).2⟩
  rw [← hchunks]
  exact execSendArray_eq [b] s

end Sys2Proof.Machine
end

section
/-! PROOFS. The statements of 41_addressing_mode.md: what the mode requests yield, and the state machine of `MODE`. -/

namespace Sys2Proof.Machine

/-! ### What the mode requests yield -/

/-- Settles O10: both rules are their plans, with the two commands of `ModeSwitchTxns` (R84). -/
theorem modeSwitchesYieldTwoCommands : Obligations.ModeSwitchesYieldTwoCommands :=
  fun _ => ⟨rfl, rfl⟩

/-- Settles O11: the byte is `Mode.byte` of `MODE`, one value for each mode. -/
theorem readModeYieldsTheModeByte : Obligations.ReadModeYieldsTheModeByte :=
  fun s => ⟨s.mode.byte, rfl, fun h => by rw [h]; rfl, fun h => by rw [h]; rfl, fun h => by rw [h]; rfl⟩

theorem exec_setHmode_yields {s u : State} (hexec : exec .setHmode s = .next u) :
    u.commit = some .horizontal ∧ u.txq = [[0x00, 0x20], [0x00, 0x00]] := by
  obtain rfl := Host.Outcome.next.inj ((modeSwitchesYieldTwoCommands s).1.symm.trans hexec)
  exact ⟨rfl, rfl⟩

theorem exec_setPmode_yields {s u : State} (hexec : exec .setPmode s = .next u) :
    u.commit = some .page ∧ u.txq = [[0x00, 0x20], [0x00, 0x02]] := by
  obtain rfl := Host.Outcome.next.inj ((modeSwitchesYieldTwoCommands s).2.symm.trans hexec)
  exact ⟨rfl, rfl⟩

/-- SETUP whose operand asks for a mode (R101, R102). -/
theorem exec_setup_yields {b : Byte} {m : Mode} {s u : State} (hm : setupMode b = some m)
    (hexec : exec (.setup b) s = .next u) : u.commit = some m ∧ u.txq = initTxns ++ modeSwitchTxns m := by
  obtain rfl := Host.Outcome.next.inj ((execSetup_mode b m s hm).symm.trans hexec)
  exact ⟨rfl, rfl⟩

/-- SETUP with a reserved operand (R65, R102). -/
theorem exec_setup_reserved_yields {b : Byte} {s u : State} (h1 : b ≠ 0x01) (h2 : b ≠ 0x02)
    (hexec : exec (.setup b) s = .next u) : u.commit = none ∧ u.txq = [] := by
  have hm : setupMode b = none := by rw [setupMode, if_neg h1, if_neg h2]
  obtain rfl := Host.Outcome.next.inj ((execSetup_reserved b s hm).symm.trans hexec)
  exact ⟨rfl, rfl⟩

/-- The rules of all other requests commit no mode (R21). -/
theorem exec_commit_eq_none {i : Instr} {s u : State} (hh : i ≠ .setHmode) (hp : i ≠ .setPmode) (hs : ∀ b, i ≠ .setup b)
    (hexec : exec i s = .next u) : u.commit = none := by
  rcases (onlyModeSwitchesWriteMode.1 i s u hexec).2 with h | ⟨hi, -⟩ | ⟨hi, -⟩ | ⟨hi, -⟩ | ⟨hi, -⟩
  · exact h
  · exact absurd hi hh
  · exact absurd hi hp
  · exact absurd hi (hs _)
  · exact absurd hi (hs _)

/-! ### The transport's polls, as far as a request needs them -/

/-- Polls that hold at least `n` answers begin with polls that hold exactly `n` and do not end in a wait. -/
theorem exists_polls_of_le {n : Nat} {transport : List (Option Answer)} (h : n ≤ (transport.filterMap id).length) :
    ∃ polls more, transport = polls ++ more ∧ (polls.filterMap id).length = n ∧ polls.getLast? ≠ some none := by
  induction transport generalizing n with
  | nil => exact ⟨[], [], rfl, (Nat.le_zero.mp h).symm, by simp⟩
  | cons x transport ih =>
    cases n with
    | zero => exact ⟨[], _, rfl, rfl, by simp⟩
    | succ n =>
      cases x with
      | none =>
        obtain ⟨polls, more, rfl, hlen, hlast⟩ := ih h
        cases polls with
        | nil => cases hlen
        | cons y polls => exact ⟨none :: y :: polls, more, rfl, hlen, by rwa [List.getLast?_cons_cons]⟩
      | some a =>
        obtain ⟨polls, more, rfl, hlen, hlast⟩ := ih (Nat.le_of_succ_le_succ h)
        refine ⟨some a :: polls, more, rfl, congrArg Nat.succ hlen, ?_⟩
        cases polls with
        | nil => simp
        | cons y polls => rwa [List.getLast?_cons_cons]

/-! ### The transactions that go out -/

theorem issued_transaction (addr : BitVec 7) (p : List Byte) (r : Answer) :
    issued (.issue addr p :: answerEvents p r) = [(addr, p)] := by cases r <;> rfl

/-- Each transaction goes out once, in order, whatever its answer (R52, R110). -/
theorem issued_transactions (addr : BitVec 7) {q : List (List Byte)} {answers : List Answer} (h : answers.length = q.length) :
    issued ((q.zip answers).flatMap fun x => .issue addr x.1 :: answerEvents x.1 x.2) = q.map fun p => (addr, p) := by
  induction q generalizing answers with
  | nil => rfl
  | cons p q ih =>
    obtain ⟨a, answers, rfl⟩ := List.exists_cons_of_length_eq_add_one h
    rw [List.zip_cons_cons, List.flatMap_cons, issued_append, issued_transaction, ih (Nat.succ.inj h)]
    rfl

theorem issued_abandoned (s : State) : issued s.abandoned = [] := by
  unfold State.abandoned
  split <;> rfl

/-! ### The state machine -/

/-- Settles O51: a request runs to its end (`requestRunsToItsResponse`), where the commit of its plan is the row of R83's
table; reset is its last row. -/
theorem modeFollowsItsStateMachine : Obligations.ModeFollowsItsStateMachine := by
  refine ⟨fun i s rest hwf hphase hfault hin hline hreq => ?_, fun s rest hline => ?_⟩
  · obtain ⟨u, r, hexec, -, hrun⟩ := requestRunsToItsResponse i s rest hwf hphase hfault hin hline hreq
    refine ⟨u.txq, u.commit.getD s.mode, ?_, fun hle => ?_⟩
    · split
      · obtain ⟨hcommit, htxq⟩ := exec_setHmode_yields hexec
        exact ⟨by rw [hcommit, Option.getD_some], htxq⟩
      · obtain ⟨hcommit, htxq⟩ := exec_setPmode_yields hexec
        exact ⟨by rw [hcommit, Option.getD_some], htxq⟩
      · refine ⟨?_, ?_, fun h1 h2 => ?_⟩
        · rintro rfl
          obtain ⟨hcommit, htxq⟩ := exec_setup_yields (m := .horizontal) rfl hexec
          exact ⟨by rw [hcommit, Option.getD_some], htxq⟩
        · rintro rfl
          obtain ⟨hcommit, htxq⟩ := exec_setup_yields (m := .page) rfl hexec
          exact ⟨by rw [hcommit, Option.getD_some], htxq⟩
        · obtain ⟨hcommit, htxq⟩ := exec_setup_reserved_yields h1 h2 hexec
          exact ⟨by rw [hcommit, Option.getD_none], htxq⟩
      · rename_i hh hp hs
        rw [exec_commit_eq_none hh hp hs hexec]
        exact ⟨rfl, u, hexec, rfl⟩
    · obtain ⟨polls, more, htr, hlen, hlast⟩ := exists_polls_of_le hle
      refine ⟨_, _, hrun _ polls more hlen rfl hlast htr, hphase, hfault, rfl, rfl, ?_⟩
      rw [issued_append, issued_append, issued_transactions _ hlen]
      exact List.append_nil _
  · refine ⟨_, step_of_reset s rest hline, rfl, ?_⟩
    rw [State.applyReset_trace, issued_append, issued_abandoned]
    exact List.append_nil _

end Sys2Proof.Machine
end

section
/-! PROOFS. The statements of 42_packer.md: the frame of `Pack` bit by bit, and what PACK and PUT_IMAGE yield. -/

namespace Sys2Proof.Machine

/-! ### The packed frame, bit by bit -/

/-- The indices that `Pack` writes on `pages` pages (R93). -/
theorem frame_index_lt {w pages p c : Nat} (hp : p < pages) (hc : c < w) : p * w + c < pages * w :=
  calc p * w + c < p * w + w := Nat.add_lt_add_left hc _
    _ = (p + 1) * w := (Nat.succ_mul p w).symm
    _ ≤ pages * w := Nat.mul_le_mul_right w hp

theorem packedFrame_getElem? (sens : Byte) {w h p c : Nat} (samples : List Byte) (hp : p < h / 8) (hc : c < w) :
    (packedFrame sens w h samples)[p * w + c]? = some (packedByte sens w samples p c) := by
  have hdiv : (p * w + c) / w = p := Nat.div_eq_of_lt_le (Nat.le_add_right _ _) (frame_index_lt p.lt_succ_self hc)
  have hmod : (p * w + c) % w = c := by rw [Nat.mul_comm, Nat.mul_add_mod, Nat.mod_eq_of_lt hc]
  rw [packedFrame, List.getElem?_map, List.getElem?_range (frame_index_lt hp hc), Option.map_some, hdiv, hmod]

/-- Bit `b` of a packed byte, by the sample that `SAMPLE` holds there (R93). -/
theorem packedByte_bit_of_sample {sens sample : Byte} {w p c b : Nat} {samples : List Byte} (hb : b < 8)
    (hs : samples[(8 * p + b) * w + c]? = some sample) :
    (packedByte sens w samples p c).getLsbD b = true ↔ sens.toNat < sample.toNat := by
  have hat : sampleAt w samples (8 * p + b) c = sample := by rw [sampleAt, List.getD_eq_getElem?_getD, hs, Option.getD_some]
  rw [packedByte_bit _ _ _ _ _ _ hb, hat, decide_eq_true_iff, BitVec.lt_def]

/-- No sample is greater than 255, so the greatest sensitivity sets no bit (R94). -/
theorem packedByte_of_max_sens (w : Nat) (samples : List Byte) (p c : Nat) : packedByte 0xFF w samples p c = 0x00 := by
  refine BitVec.eq_of_getLsbD_eq fun b hb => ?_
  have hoff : ¬ (0xFF : Byte) < sampleAt w samples (8 * p + b) c := Nat.not_lt.mpr (Nat.le_of_lt_succ (BitVec.isLt _))
  rw [packedByte_bit _ _ _ _ _ _ hb, decide_eq_false hoff]
  exact BitVec.getLsbD_zero.symm

theorem eq_zero_of_mem_packedFrame {w h : Nat} {samples : List Byte} {byte : Byte}
    (hmem : byte ∈ packedFrame 0xFF w h samples) : byte = 0x00 := by
  obtain ⟨a, -, rfl⟩ := List.mem_map.mp hmem
  exact packedByte_of_max_sens w samples _ _

/-! ### What PACK and PUT_IMAGE yield -/

/-- Settles O17: the answer is `packedFrame`, whose bits are the thresholds of samples that all exist. -/
theorem packAnswersThePackedFrame : Obligations.PackAnswersThePackedFrame := by
  intro sens w h samples s hw hh h8 hn
  obtain ⟨m, hpack, -, -, hbelow, habove⟩ := execPack_valid sens w h samples s ((imageValid_iff _ _ _).mpr ⟨hw, hh, h8, hn⟩)
  refine ⟨_, m, hpack, packedFrame_length .., hbelow, habove, fun p c b hp hc hb => ?_⟩
  have hs : samples[(8 * p + b) * w.toNat + c]? = some _ := List.getElem?_eq_getElem (hn ▸ sample_index_lt hp hb hc)
  exact ⟨_, _, packedFrame_getElem? sens samples hp hc, hs, packedByte_bit_of_sample hb hs⟩

/-- Settles O18: both rules go on with one packed frame (`execPack_valid`), and SEND_ARRAY yields its chunks too. -/
theorem putImageSendsWhatPackAnswers : Obligations.PutImageSendsWhatPackAnswers := by
  intro sens w h samples s hw hh h8 hn
  obtain ⟨m, hpack, hput, -⟩ := execPack_valid sens w h samples s ((imageValid_iff _ _ _).mpr ⟨hw, hh, h8, hn⟩)
  exact ⟨_, m, hpack, hput, _, execSendArray_eq _ s, rfl⟩

/-- Settles O20: by `packedByte_bit_of_sample` each clause is a comparison of `S` with the sample. -/
theorem thresholdIsStrict : Obligations.ThresholdIsStrict := by
  intro sens w h samples s hw hh h8 hn
  obtain ⟨m, hpack, -⟩ := execPack_valid sens w h samples s ((imageValid_iff _ _ _).mpr ⟨hw, hh, h8, hn⟩)
  refine ⟨_, m, hpack, fun p c b byte sample hp hc hb hbyte hs => ?_, ?_⟩
  · obtain rfl : packedByte sens w.toNat samples p c = byte :=
      Option.some.inj ((packedFrame_getElem? sens samples hp hc).symm.trans hbyte)
    have hbit := packedByte_bit_of_sample (sens := sens) hb hs
    refine ⟨?_, hbit.mpr, ?_⟩
    · rintro rfl
      exact Bool.eq_false_iff.mpr fun h1 => Nat.lt_irrefl _ (hbit.mp h1)
    · rintro rfl
      exact hbit.trans (Nat.pos_iff_ne_zero.trans (BitVec.toNat_ne_iff_ne (y := (0 : Byte))))
  · rintro rfl byte hmem
    exact eq_zero_of_mem_packedFrame hmem

/-- Settles O21: `packedFrame` is formed from the operands alone. -/
theorem packIsPure : Obligations.PackIsPure := by
  intro sens w h samples hw hh h8 hn
  refine ⟨packedFrame sens w.toNat h.toNat samples, packedFrame_length .., fun s => ?_⟩
  obtain ⟨m, hpack, -⟩ := execPack_valid sens w h samples s ((imageValid_iff _ _ _).mpr ⟨hw, hh, h8, hn⟩)
  exact ⟨m, hpack⟩

/-- Settles O19: `imageValid` fails, and both rules raise the condition before they write (`execPack_invalid`). -/
theorem invalidImagesAreRejected : Obligations.InvalidImagesAreRejected := by
  intro sens w h samples s hinvalid
  exact execPack_invalid sens w h samples s (Bool.eq_false_iff.mpr fun hv => hinvalid ((imageValid_iff _ _ _).mp hv))

end Sys2Proof.Machine
end

section
/-! PROOFS. The statements of 43_text_and_controller.md: what PUT_CHAR, SETUP and SET_BRIGHTNESS yield. -/

namespace Sys2Proof.Machine

/-- Settles O14: the index is `glyphIndex`, below 96 for every codepoint, so FONTROM holds all eight bytes of the glyph and
they make one chunk (`execPutChar_eq`). -/
theorem putCharYieldsTheGlyph : Obligations.PutCharYieldsTheGlyph :=
  fun cp s => ⟨⟨glyphIndex cp, glyphIndex_lt cp⟩, rfl, execPutChar_eq cp s⟩

/-- The operands of SETUP that ask for no mode (R65, R102). -/
theorem setupMode_eq_none {b : Byte} (h1 : b ≠ 0x01) (h2 : b ≠ 0x02) : setupMode b = none := by
  rw [setupMode, if_neg h1, if_neg h2]

/-- Settles O15: the operand asks for Horizontal, for Page, or for no mode; the first two yield `initTxns` and then the switch
to that mode. -/
theorem setupYieldsInitAndModeSwitch : Obligations.SetupYieldsInitAndModeSwitch := by
  intro b s
  refine ⟨?_, ?_, fun h1 h2 => execSetup_reserved b s (setupMode_eq_none h1 h2)⟩
  · rintro rfl
    exact execSetup_mode 0x01 .horizontal s rfl
  · rintro rfl
    exact execSetup_mode 0x02 .page s rfl

/-- Settles O16: the rule is its plan, with both bytes in command transactions (R103). -/
theorem setBrightnessYieldsTwoCommands : Obligations.SetBrightnessYieldsTwoCommands :=
  fun _ _ => rfl

end Sys2Proof.Machine
end

section
/-! PROOFS. The statements of 60_exceptions.md: failures are swallowed and each is shown by its diagnostic event, `FAULT` is
entered on an illegal opcode and left by reset only, and a hold lasts for ever. -/

namespace Sys2Proof.Machine

/-! ### Failures are swallowed -/

@[simp] theorem blindTrace_append (a b : List Event) : blindTrace (a ++ b) = blindTrace a ++ blindTrace b :=
  List.filterMap_append

/-- Without its failure an answer shows what a success does (R111). -/
@[simp] theorem blindTrace_answerEvents (p : List Byte) (r : Answer) :
    blindTrace (answerEvents p r) = answerEvents p .success := by
  cases r <;> rfl

@[simp] theorem blindTrace_issueEvents (s : State) (p : List Byte) : blindTrace (s.issueEvents p) = s.issueEvents p := by
  unfold State.issueEvents
  split <;> rfl

@[simp] theorem blindTrace_abandoned (s : State) : blindTrace s.abandoned = s.abandoned := by
  unfold State.abandoned
  split <;> rfl

@[simp] theorem blindTrace_respond (rs : List Response) : blindTrace (rs.map .respond) = rs.map .respond := by
  simp [blindTrace, List.filterMap_map]

/-- Making the failures invisible in what a step or a run comes to. -/
def blindOutcome (o : Host.Outcome State Fault Refusal) : Host.Outcome State Fault Refusal :=
  match o with
  | .next t => .next t.blind
  | .fault f => .fault f
  | .refused r => .refused r

/-- Issuing does not look at answers. -/
theorem issue_blind (s : State) : s.blind.issue = s.issue.blind := by
  cases htxq : s.txq with
  | nil => rw [issue_nil s htxq, issue_nil s.blind htxq]
  | cons p q =>
    have hevents : s.blind.issueEvents p = s.issueEvents p := rfl
    rw [issue_cons s p q htxq, issue_cons s.blind p q htxq, hevents]
    simp [State.blind]

/-- A failure frees the transaction in flight as a success does (R110). -/
theorem poll_blind (s : State) : s.blind.poll = s.poll.blind := by
  cases hin : s.inflight with
  | false => simp [State.poll, State.blind, hin]
  | true =>
    rcases htr : s.transport with _ | ⟨_ | r, as⟩
    · simp [State.poll, State.blind, hin, htr]
    · simp [State.poll, State.blind, hin, htr]
    · cases htxq : s.txq <;> simp [State.poll, State.blind, hin, htr, htxq]

/-- The end of a request does not look at answers (R54, R110). -/
theorem finish_blind (s : State) : s.blind.finish = s.finish.blind := by
  by_cases hgo : s.inflight = true ∨ s.txq ≠ []
  · rw [finish_goes_on hgo, finish_goes_on (s := s.blind) hgo]
  · obtain ⟨hin, htxq⟩ : s.inflight = false ∧ s.txq = [] := by simpa using hgo
    rw [finish_ends hin htxq, finish_ends (s := s.blind) hin htxq]
    simp [State.blind]

theorem execPhase_blind (s : State) : s.blind.execPhase = s.execPhase.blind := by
  simp only [State.execPhase, issue_blind, poll_blind, finish_blind]

/-- A rule looks at the frame and the mode only, so its plan is the same (`exec_yieldsOnePlan`). -/
theorem exec_blind (i : Instr) (s : State) : exec i s.blind = blindOutcome (exec i s) := by
  obtain ⟨m, p, -, -, hexec⟩ := exec_yieldsOnePlan i s.frame s.mode
  rw [hexec s rfl fun _ => rfl, hexec s.blind rfl fun _ => rfl]
  rfl

theorem enterFault_blind (s : State) : s.blind.enterFault = s.enterFault.blind := by
  simp only [State.enterFault, State.respond, State.blind, blindTrace_append]
  rfl

theorem applyReset_blind (s : State) : s.blind.applyReset = s.applyReset.blind := by
  have habandoned : s.blind.abandoned = s.abandoned := rfl
  rw [State.applyReset, habandoned]
  simp [State.applyReset, State.blind]

/-- The engine's step commutes with making failures invisible: one case for each thing it can do. -/
theorem engine_blind (s : State) : engine s.blind = blindOutcome (engine s) := by
  rcases engine_cases s with ⟨hstop, he⟩ | ⟨hf, hexec, he⟩ | ⟨hf, hphase, hreq, he⟩ | ⟨b, rest, hf, hphase, hreq, hconsume⟩
  · rw [he, engine_fault s.blind hstop]
    rfl
  · rw [he, engine_exec s.blind hf hexec, execPhase_blind]
    rfl
  · rw [he, engine_hold s.blind hf hphase hreq]
    rfl
  · rcases hconsume with ⟨hd, he⟩ | ⟨x, hd, he⟩ | ⟨i, tail, hd, he⟩
    · rw [he, engine_incomplete s.blind b rest hf hphase hreq hd]
      rfl
    · rw [he, engine_illegal s.blind b x rest hf hphase hreq hd]
      exact congrArg _ (enterFault_blind (s.consume b rest))
    · rw [he, engine_complete s.blind b rest tail i hf hphase hreq hd]
      exact exec_blind i { s.consume b rest with phase := .exec }

/-- A step commutes with making failures invisible, reset or not (R110, R121). -/
theorem step_blind (s : State) : step s.blind = blindOutcome (step s) := by
  by_cases hreset : s.resetLine.head? = some true
  · obtain ⟨rest, hline⟩ := List.head?_eq_some_iff.mp hreset
    rw [step_of_reset s rest hline, step_of_reset s.blind rest hline]
    exact congrArg _ (applyReset_blind { s with resetLine := rest })
  · rw [step_of_no_reset s hreset, step_of_no_reset s.blind hreset]
    exact engine_blind s.pastSample

/-- A run commutes with making failures invisible, by induction on its length. -/
theorem run_blind (n : Nat) (s : State) : run n s.blind = blindOutcome (run n s) := by
  induction n generalizing s with
  | zero => rfl
  | succ n ih =>
    rw [run, run, step_blind]
    cases step s with
    | next t => exact ih t
    | fault f => rfl
    | refused r => rfl

/-- Settles O46: the two outcomes of `run_blind` that the statement speaks of. -/
theorem failuresChangeNothing : Obligations.FailuresChangeNothing := by
  intro n s
  rw [run_blind]
  exact ⟨fun t h => by rw [h]; rfl, fun f h => by rw [h]; rfl⟩

/-! ### The diagnostic events -/

/-- The payloads of the transactions of a trace that were answered with `Failure`, in order. -/
def failures (tr : List Event) : List (List Byte) :=
  ((transactions tr).filter fun x => x.answer = some .failure).map TxRecord.payload

theorem failures_append (a b : List Event) : failures (a ++ b) = failures a ++ failures b := by
  simp [failures, transactions_append]

/-- The payload whose failure is answered and whose diagnostic event is due. -/
def BusState.due : BusState → List (List Byte)
  | .failed p => [p]
  | _ => []

theorem State.busState_due (s : State) : s.busState.due = [] := by
  unfold State.busState
  split <;> rfl

/-- An event adds to the failures, the diagnostic events and the one due so that the three stay in balance (R111). -/
theorem after_diagnoses {b b' : BusState} {e : Event} (h : b.after e = some b') :
    b.due ++ failures [e] = diagnostics [e] ++ b'.due := by
  rcases after_cases h with ⟨p, rfl, rfl, -, rfl⟩ | ⟨r, rfl, rfl, -, rfl⟩ |
    ⟨p, rfl, ⟨rfl, rfl⟩ | ⟨rfl, rfl⟩ | ⟨rfl, rfl⟩⟩ | ⟨p, rfl, rfl, rfl⟩ <;> rfl

/-- In a trace that obeys the bus rules each failure has its diagnostic event, in order, but for the one due. -/
theorem foldlM_after_diagnoses {tr : List Event} {b b' : BusState} (h : tr.foldlM BusState.after b = some b') :
    b.due ++ failures tr = diagnostics tr ++ b'.due := by
  induction tr generalizing b with
  | nil =>
    cases h
    exact List.append_nil _
  | cons e tr ih =>
    rw [List.foldlM_cons] at h
    obtain ⟨c, he, htr⟩ := Option.bind_eq_some_iff.mp h
    rw [← List.singleton_append, failures_append, diagnostics_append, ← List.append_assoc, after_diagnoses he,
      List.append_assoc, ih htr, List.append_assoc]

/-- Settles O45: nothing is due at the beginning of the trace nor, the sequencer having no such state, at its end. -/
theorem diagnosticsAreTheFailures : Obligations.DiagnosticsAreTheFailures := by
  intro s h
  have hbalance := foldlM_after_diagnoses h.traceBus
  rw [s.busState_due, List.append_nil] at hbalance
  exact hbalance.symm

/-! ### `FAULT` -/

/-- In `FAULT` there is no step but reset (R25, R113). -/
theorem step_fault {s : State} (hreset : s.resetLine.head? ≠ some true) (hfault : s.fault = true) :
    step s = .fault .faulted := by
  rw [step_of_no_reset s hreset]
  exact engine_fault s.pastSample (.inl hfault)

/-- An agent's step out of `FAULT` is reset, asserted by the host or sampled from the reset input (R113, R121). -/
theorem agentStep_out_of_fault {s t : State} (hfault : s.fault = true) (hstep : AgentStep s t) (hout : t.fault = false) :
    ∃ line, t = { s with resetLine := line }.applyReset := by
  cases hstep with
  | engine t hstep =>
    by_cases hreset : s.resetLine.head? = some true
    · obtain ⟨rest, hline⟩ := List.head?_eq_some_iff.mp hreset
      exact ⟨rest, Host.Outcome.next.inj (hstep.symm.trans (step_of_reset s rest hline))⟩
    · rw [step_fault hreset hfault] at hstep
      cases hstep
  | hostWrites bytes => exact absurd (hfault.symm.trans hout) (by decide)
  | hostResets => exact ⟨s.resetLine, rfl⟩
  | transportSettles polls => exact absurd (hfault.symm.trans hout) (by decide)

/-- Settles O32: the step out is reset, which leaves `REQ` alone and shows no more than an abandoned transaction. -/
theorem onlyResetLeavesFault : Obligations.OnlyResetLeavesFault := by
  refine fun s hfault => ⟨fun hreset => step_fault hreset hfault, fun t hstep hout => ?_⟩
  obtain ⟨line, rfl⟩ := agentStep_out_of_fault hfault hstep hout
  refine ⟨rfl, rfl, rfl, rfl, rfl, rfl, rfl, rfl, rfl, rfl, ?_, ?_⟩
  · rw [State.applyReset_trace, issued_append, issued_abandoned, List.append_nil]
  · rw [State.applyReset_trace, responses_append, responses_abandoned, List.append_nil]

/-- Settles O31: the byte alone decodes as an illegal opcode (O6), so the engine's step enters `FAULT`, where no step
follows. -/
theorem illegalOpcodeEntersFault : Obligations.IllegalOpcodeEntersFault := by
  intro s b rest hreset hfault hphase hreq hb
  have hcur : s.pastSample.curWith b = [b] := if_pos hphase
  have hd : decode (s.pastSample.curWith b) = .error (.illegalOpcode b) := by
    rw [hcur]
    exact (illegalOpcodeBytes b []).mpr hb
  have hstep := engine_illegal s.pastSample b b rest hfault (.inl hphase) hreq hd
  refine ⟨_, rfl, ?_, by simp [State.endedWell], fun hreset' => step_fault hreset' rfl⟩
  rw [step_of_no_reset s hreset, hstep, State.consume, hcur]
  rfl

/-! ### Holds -/

theorem State.pastSample_eq_self {s : State} (h : s.resetLine = []) : s.pastSample = s := by
  unfold State.pastSample
  rw [h, List.tail_nil, ← h]

/-- While the transport does not answer the transaction in flight, no clause of `EXEC` changes anything (R32, R115). -/
theorem execPhase_eq_self {s : State} (hin : s.inflight = true) (htr : s.transport = []) : s.execPhase = s := by
  have hissue : s.issue = s := by simp [State.issue, hin]
  have hpoll : s.poll = s := by simp [State.poll, hin, htr]
  rw [State.execPhase, hissue, hpoll, finish_goes_on (.inl hin)]

/-- A hold is a step that changes nothing: no byte is offered where one is waited for, or no answer comes (R35, R115). -/
theorem engine_eq_self {s : State} (hfault : s.fault = false)
    (hhold : ((s.phase = .idle ∨ s.phase = .recv) ∧ s.req = []) ∨
      (s.phase = .exec ∧ s.inflight = true ∧ s.transport = [])) :
    engine s = .next s := by
  rcases hhold with ⟨hphase, hreq⟩ | ⟨hexec, hin, htr⟩
  · exact engine_hold s hfault hphase hreq
  · rw [engine_exec s hfault hexec, execPhase_eq_self hin htr]

/-- A state whose step changes nothing is where it was after any number of steps. -/
theorem run_of_step_eq_self {s : State} (h : step s = .next s) (n : Nat) : run n s = .next s := by
  induction n with
  | zero => rfl
  | succ n ih => rw [run_succ n s s h, ih]

/-- Settles O35: the held step changes nothing, and so does a run of it. -/
theorem holdsLastForEver : Obligations.HoldsLastForEver := by
  intro n s hline hfault hhold
  refine run_of_step_eq_self ?_ n
  rw [step_of_no_reset s (by simp [hline]), State.pastSample_eq_self hline]
  exact engine_eq_self hfault hhold

end Sys2Proof.Machine
end

section
/-! PROOFS. The statements of 70_reset_and_hazards.md: reset sets every register, abandons the request, and leads to a good
state. -/

namespace Sys2Proof.Machine

/-! ### What an abandoned transaction shows -/

theorem diagnostics_abandoned (s : State) : diagnostics s.abandoned = [] := by
  unfold State.abandoned
  split <;> rfl

/-- Reset records the transaction in flight, the head of `TXQ`, as one without an answer (R122). -/
theorem transactions_abandoned (s : State) :
    transactions s.abandoned = if s.inflight = true then (s.txq.take 1).map fun p => ⟨p, none⟩ else [] := by
  cases hin : s.inflight <;> cases htxq : s.txq <;> simp [State.abandoned, transactions, hin, htxq]

/-! ### The step under reset and the step after it -/

/-- Between requests no byte is held (R31): the step consumes the byte offered as the first of a request (R32). -/
theorem step_begins_request {s t : State} {b : Byte} {rest : List Byte} (hphase : s.phase = .idle) (hreq : s.req = b :: rest)
    (hreset : s.resetLine.head? ≠ some true) (hstep : step s = .next t) : t.cur = [b] := by
  rcases requestBytesAreConsumedInOrder s t hreset hstep with ⟨-, -, hexec | ⟨hnil, -⟩⟩ | ⟨c, hc, -, hcur⟩
  · exact absurd (hphase.symm.trans hexec) (by decide)
  · exact absurd (hreq.symm.trans hnil) (List.cons_ne_nil b rest)
  · obtain rfl : b = c := (List.cons.inj (hreq.symm.trans hc)).1
    rcases hcur with ⟨-, hcur⟩ | ⟨hrecv, -⟩
    · exact hcur
    · exact absurd (hphase.symm.trans hrecv) (by decide)

/-- Settles O34: the step is `applyReset`, the trace of which grows by `abandoned` only, and it leaves the block in IDLE. -/
theorem resetAbandonsTheRequest : Obligations.ResetAbandonsTheRequest := by
  intro s t _ hreset hstep
  obtain ⟨line, hline⟩ := List.head?_eq_some_iff.mp hreset
  obtain rfl := Host.Outcome.next.inj ((step_of_reset s line hline).symm.trans hstep)
  refine ⟨?_, ?_, ?_, ?_, rfl, rfl, rfl, rfl, rfl, rfl, rfl, fun b rest u => step_begins_request rfl⟩
  · rw [State.applyReset_trace, issued_append, issued_abandoned, List.append_nil]
  · rw [State.applyReset_trace, responses_append, responses_abandoned, List.append_nil]
  · rw [State.applyReset_trace, diagnostics_append, diagnostics_abandoned, List.append_nil]
  · rw [State.applyReset_trace, transactions_append, transactions_abandoned]

/-- Settles O33: a step under reset is `applyReset`, which assigns the ten registers of R121, as the state after reset does. -/
theorem resetSetsEveryRegister : Obligations.ResetSetsEveryRegister := by
  refine ⟨fun s rest hline => ⟨_, step_of_reset s rest hline, ?_⟩, ?_⟩
  · exact ⟨rfl, rfl, rfl, rfl, rfl, rfl, rfl, rfl, rfl, rfl, rfl⟩
  · exact ⟨rfl, rfl, rfl, rfl, rfl, rfl, rfl, rfl, rfl, rfl⟩

/-- Settles O40: no request runs after reset, and its trace is empty. -/
theorem resetStateIsGood : Obligations.ResetStateIsGood := inv_reset

end Sys2Proof.Machine
end

section
/-! PROOFS. The canonical form of `FRAME` (entry 6 of the assumption log): its cells are what it reads. -/

namespace Sys2Proof.Machine

/-- In canonical form no address is listed twice, so the cells are exactly the pairs of an index and the byte read there. -/
theorem Memory.mem_iff_read (m : Memory) (hwf : m.wf) (c : Host.Cell) : c ∈ m ↔ m.read c.1 = some c.2 := by
  induction m with
  | nil => simp [Memory.read]
  | cons d ds ih =>
    obtain ⟨hfirst, hrest⟩ := List.pairwise_cons.mp hwf
    rw [List.mem_cons, ih hrest, Memory.read]
    by_cases haddr : d.1 = c.1
    · have hnot : c ∉ ds := fun hc => (hfirst c.1 (List.mem_map_of_mem hc)).ne haddr
      rw [ih hrest] at hnot
      simp [haddr, hnot, Prod.ext_iff, eq_comm]
    · have hne : c ≠ d := fun h => haddr (h ▸ rfl)
      simp [haddr, hne]

/-- Settles O39: frames that read alike have the same cells, and the rising indices fix their order. -/
theorem canonicalFramesAreEqual : Obligations.CanonicalFramesAreEqual := by
  intro m m' hwf hwf' hread
  have hmem : ∀ c, c ∈ m ↔ c ∈ m' := fun c => by rw [m.mem_iff_read hwf, m'.mem_iff_read hwf', hread]
  exact (List.pairwise_map.mp hwf).eq_of_mem_iff (List.pairwise_map.mp hwf') hmem

end Sys2Proof.Machine
end
